-- ==== Sys2Proof/Word.lean ====
section
/-! DEFINITION. The two word types of the machine and the limits of their values (00_scope.md R5, R6). -/

namespace Sys2Proof

/-- One cell: a signed two's-complement integer of CELLW = 64 bits (R5). Its value is `toInt`; all
arithmetic on cells is done in `Int` and narrowed explicitly (R10, R102). -/
abbrev Cell := BitVec 64

/-- One address: an unsigned integer of ADDRW = 64 bits (R6). Its value is `toNat`. -/
abbrev Addr := BitVec 64

/-- CELL_MIN = -2^63 (R5). -/
def cellMin : Int := -9223372036854775808

/-- CELL_MAX = 2^63 - 1 (R5). -/
def cellMax : Int := 9223372036854775807

/-- ADDR_MAX = 2^64 - 1 (R6). -/
def addrMax : Nat := 18446744073709551615

end Sys2Proof
end

