-- ==== Sys2Proof/Config.lean ====
section
/-! DEFINITION. What an implementation fixes: the one open parameter of the spec, MEM_LIMIT (00_scope.md R7).
The machine has no free values: no rule leaves a result, a register or a flag undefined. -/

namespace Sys2Proof

/-- MEM_LIMIT, an optional natural number, at the spec's default *none*: every address in 0 .. ADDR_MAX can be
read and written (R7, R44; 92_eei_decisions.md D4). Log entry 3. -/
def Config.memLimit : Option Nat := none

/-- Whether an address lies within a capacity: below `L` for the limit `L`, always for none (R44). -/
def Config.within (limit : Option Nat) (a : Addr) : Bool :=
  match limit with
  | none => true
  | some l => decide (a.toNat < l)

end Sys2Proof
end

