-- ==== Sys2Proof/Syntax.lean ====
section
/-! DEFINITION. The instructions as data: one constructor per row of spec/opcode_table.json, each with the
three mode digits of its instruction cell (30_encoding.md R61 to R63, R66), and the operands of the spec's
assembly notation (R72). A parameter is a whole memory cell, read when the instruction executes (R84), and so
is no part of an instruction cell. -/

namespace Sys2Proof

/-- The three addressing modes (R62). -/
inductive Mode where
  /-- digit 0: the parameter is the address of the operand -/
  | position
  /-- digit 1: the parameter cell itself is the operand -/
  | immediate
  /-- digit 2: parameter plus relative base is the address of the operand -/
  | relative
deriving DecidableEq, Repr

/-- A legal instruction cell, `Decode`'s record `(op, m1, m2, m3)` (R66). Every constructor carries all three
mode digits: those of slots the opcode lacks are ignored when it executes (R68), but are part of the cell. -/
inductive Instr where
  | add (m1 m2 m3 : Mode)
  | mul (m1 m2 m3 : Mode)
  | inp (m1 m2 m3 : Mode)
  | out (m1 m2 m3 : Mode)
  | jit (m1 m2 m3 : Mode)
  | jif (m1 m2 m3 : Mode)
  | lt (m1 m2 m3 : Mode)
  | equ (m1 m2 m3 : Mode)
  | rbo (m1 m2 m3 : Mode)
  | halt (m1 m2 m3 : Mode)
deriving DecidableEq, Repr

/-- The ten mnemonics (R63). -/
inductive Mnemonic where
  | add | mul | inp | out | jit | jif | lt | equ | rbo | halt
deriving DecidableEq, Repr

/-- One operand of the assembly notation (R72): `[n]`, `#n` or `[rb+n]`. -/
inductive Operand where
  | position (n : Cell)
  | immediate (n : Cell)
  | relative (n : Cell)
deriving DecidableEq, Repr

/-- The number `n` of an operand as it is written: a cell value or a label (R72). -/
inductive AsmNumber where
  | value (n : Cell)
  | label (name : String)
deriving DecidableEq, Repr

/-- One item of an assembly program (R72, R73): a label, which stands for the address of the next cell emitted; an
instruction with the mode and number of its operands in slot order; or a `.data` directive. The text layout and
comments are notation only (R14) and are not modelled (log entry 15). -/
inductive AsmLine where
  | label (name : String)
  | instr (mn : Mnemonic) (ops : List (Mode × AsmNumber))
  | data (cells : List Cell)
deriving DecidableEq, Repr

end Sys2Proof
end

