-- ==== Sys2Proof/WellFormed.lean ====
section
/-! DEFINITION. Which terms of `Instr` are legal instruction cells: mode Immediate never stands on a written
slot (30_encoding.md R67 (e)). That an opcode is one of the ten and a mode digit one of three is in the types. -/

namespace Sys2Proof

/-- A written slot admits the modes Position and Relative only (R67 (e); the `legal_modes` of a written slot
in opcode_table.json). -/
def Mode.writable : Mode → Bool
  | .position => true
  | .immediate => false
  | .relative => true

/-- R67 (e): slot 3 of Add, Mul, Lt, Equ and slot 1 of In are written; no other slot is (R63). -/
def Instr.wellFormed : Instr → Bool
  | .add _ _ m3 => m3.writable
  | .mul _ _ m3 => m3.writable
  | .inp m1 _ _ => m1.writable
  | .out _ _ _ => true
  | .jit _ _ _ => true
  | .jif _ _ _ => true
  | .lt _ _ m3 => m3.writable
  | .equ _ _ m3 => m3.writable
  | .rbo _ _ _ => true
  | .halt _ _ _ => true

end Sys2Proof
end

