-- ==== Sys2Proof/Decode.lean ====
section
/-! DEFINITION. The opcode map, the decoder, the encoder, and the assembly of one instruction
(30_encoding.md R60 to R76). Fields of an instruction cell are decimal digits, not bits (R61). -/

namespace Sys2Proof

/-- The opcode number of each mnemonic (R63). -/
def Mnemonic.opcode : Mnemonic → Nat
  | .add => 1
  | .mul => 2
  | .inp => 3
  | .out => 4
  | .jit => 5
  | .jif => 6
  | .lt => 7
  | .equ => 8
  | .rbo => 9
  | .halt => 99

/-- The number of parameter cells of each mnemonic (R63). -/
def Mnemonic.nparams : Mnemonic → Nat
  | .add => 3
  | .mul => 3
  | .inp => 1
  | .out => 1
  | .jit => 2
  | .jif => 2
  | .lt => 3
  | .equ => 3
  | .rbo => 1
  | .halt => 0

/-- The mnemonic of an opcode number; none for the illegal ones (R67 (c)). -/
def mnemonicOf : Nat → Option Mnemonic
  | 1 => some .add
  | 2 => some .mul
  | 3 => some .inp
  | 4 => some .out
  | 5 => some .jit
  | 6 => some .jif
  | 7 => some .lt
  | 8 => some .equ
  | 9 => some .rbo
  | 99 => some .halt
  | _ => none

/-- The instruction with a given mnemonic and mode digits. -/
def Mnemonic.instr : Mnemonic → Mode → Mode → Mode → Instr
  | .add, m1, m2, m3 => .add m1 m2 m3
  | .mul, m1, m2, m3 => .mul m1 m2 m3
  | .inp, m1, m2, m3 => .inp m1 m2 m3
  | .out, m1, m2, m3 => .out m1 m2 m3
  | .jit, m1, m2, m3 => .jit m1 m2 m3
  | .jif, m1, m2, m3 => .jif m1 m2 m3
  | .lt, m1, m2, m3 => .lt m1 m2 m3
  | .equ, m1, m2, m3 => .equ m1 m2 m3
  | .rbo, m1, m2, m3 => .rbo m1 m2 m3
  | .halt, m1, m2, m3 => .halt m1 m2 m3

/-- The mnemonic of an instruction. -/
def Instr.mnemonic : Instr → Mnemonic
  | .add _ _ _ => .add
  | .mul _ _ _ => .mul
  | .inp _ _ _ => .inp
  | .out _ _ _ => .out
  | .jit _ _ _ => .jit
  | .jif _ _ _ => .jif
  | .lt _ _ _ => .lt
  | .equ _ _ _ => .equ
  | .rbo _ _ _ => .rbo
  | .halt _ _ _ => .halt

/-- The three mode digits of an instruction, slot 1 first. -/
def Instr.modes : Instr → Mode × Mode × Mode
  | .add m1 m2 m3 => (m1, m2, m3)
  | .mul m1 m2 m3 => (m1, m2, m3)
  | .inp m1 m2 m3 => (m1, m2, m3)
  | .out m1 m2 m3 => (m1, m2, m3)
  | .jit m1 m2 m3 => (m1, m2, m3)
  | .jif m1 m2 m3 => (m1, m2, m3)
  | .lt m1 m2 m3 => (m1, m2, m3)
  | .equ m1 m2 m3 => (m1, m2, m3)
  | .rbo m1 m2 m3 => (m1, m2, m3)
  | .halt m1 m2 m3 => (m1, m2, m3)

/-- The mode of slot `k`, counted from 1 (R61). -/
def Instr.modeOfSlot (i : Instr) (k : Nat) : Mode :=
  if k = 1 then i.modes.1 else if k = 2 then i.modes.2.1 else i.modes.2.2

/-- `nparams(op)` (R63). -/
def Instr.nparams (i : Instr) : Nat := i.mnemonic.nparams

/-- `width(op) = nparams(op) + 1` cells (R60). -/
def Instr.width (i : Instr) : Nat := i.nparams + 1

/-- The digit of a mode (R62). -/
def Mode.digit : Mode → Nat
  | .position => 0
  | .immediate => 1
  | .relative => 2

/-- The mode of a digit; none for the illegal digits 3 to 9 (R62, R67 (d)). -/
def modeOfDigit : Nat → Option Mode
  | 0 => some .position
  | 1 => some .immediate
  | 2 => some .relative
  | _ => none

/-- Why an instruction cell is illegal: the five causes of R67. -/
inductive IllegalCause where
  /-- (a) the cell is negative -/
  | negative
  /-- (b) the cell is above 99999 -/
  | aboveFiveDigits
  /-- (c) the low two digits are no opcode -/
  | badOpcode
  /-- (d) a mode digit, of a slot the opcode has or lacks, is in 3 to 9 -/
  | badModeDigit
  /-- (e) mode Immediate on a written slot -/
  | immediateWritten
deriving DecidableEq, Repr

/-- What `Decode` yields: `Illegal`, with the cause by name, or a legal instruction (R66). -/
inductive Decoded where
  | illegal (cause : IllegalCause)
  | legal (i : Instr)
deriving DecidableEq, Repr

/-- `digit_k(c) = (c div 10^k) mod 10` (R10). -/
def digitAt (k n : Nat) : Nat := n / 10 ^ k % 10

/-- `Decode` on the value of a cell in 0 .. 99999: opcode, then the three mode digits, then the written slot
(R66, in its order). -/
def decodeDigits (n : Nat) : Decoded :=
  match mnemonicOf (n % 100) with
  | none => .illegal .badOpcode
  | some mn =>
    match modeOfDigit (digitAt 2 n), modeOfDigit (digitAt 3 n), modeOfDigit (digitAt 4 n) with
    | some m1, some m2, some m3 =>
      if (mn.instr m1 m2 m3).wellFormed then .legal (mn.instr m1 m2 m3) else .illegal .immediateWritten
    | _, _, _ => .illegal .badModeDigit

/-- `Decode(c)`, a pure function of the cell value (R66). -/
def decode (c : Cell) : Decoded :=
  if c.toInt < 0 then .illegal .negative
  else if 99999 < c.toInt then .illegal .aboveFiveDigits
  else decodeDigits c.toNat

/-- The instruction cell of an instruction: `c = op + 100*m1 + 1000*m2 + 10000*m3` (R61). -/
def encode (i : Instr) : Cell :=
  BitVec.ofNat 64 (i.mnemonic.opcode + 100 * (i.modeOfSlot 1).digit + 1000 * (i.modeOfSlot 2).digit
    + 10000 * (i.modeOfSlot 3).digit)

/-- The mode an assembly operand selects (R72). -/
def Operand.mode : Operand → Mode
  | .position _ => .position
  | .immediate _ => .immediate
  | .relative _ => .relative

/-- The parameter cell of an assembly operand (R72). -/
def Operand.param : Operand → Cell
  | .position n => n
  | .immediate n => n
  | .relative n => n

/-- The operand with a given mode and parameter cell: the inverse of the two above. -/
def Operand.of : Mode → Cell → Operand
  | .position, n => .position n
  | .immediate, n => .immediate n
  | .relative, n => .relative n

/-- The mode digit of slot `k` (from 0) of an operand list: 0 for an absent slot (R74). -/
def slotMode (ops : List Operand) (k : Nat) : Mode :=
  match ops[k]? with
  | some o => o.mode
  | none => .position

/-- Assembly of one instruction (R74): its instruction cell, then the parameter cells in slot order; refused
with the wrong number of operands, and with `#n` on a written slot. -/
def assemble (mn : Mnemonic) (ops : List Operand) : Option (List Cell) :=
  let i := mn.instr (slotMode ops 0) (slotMode ops 1) (slotMode ops 2)
  if ops.length = mn.nparams ∧ i.wellFormed = true then some (encode i :: ops.map Operand.param) else none

/-- How many cells an item of assembly emits (R60, R73). -/
def AsmLine.size : AsmLine → Nat
  | .label _ => 0
  | .instr mn _ => mn.nparams + 1
  | .data cells => cells.length

/-- The address a label stands for, that of the next cell emitted, in items emitted from address `at_` on (R72). -/
def labelAddress (name : String) : Nat → List AsmLine → Option Nat
  | _, [] => none
  | at_, l :: rest =>
    if l = .label name then some at_ else labelAddress name (at_ + l.size) rest

/-- The labels of a program, in order. -/
def labelsOf : List AsmLine → List String
  | [] => []
  | .label name :: rest => name :: labelsOf rest
  | .instr _ _ :: rest => labelsOf rest
  | .data _ :: rest => labelsOf rest

/-- The cell a number stands for in a program: none for a label it does not have, or one that stands for an address
that is no cell value (R72). -/
def AsmNumber.cell (program : List AsmLine) : AsmNumber → Option Cell
  | .value n => some n
  | .label name =>
    match labelAddress name 0 program with
    | some a => if (a : Int) ≤ cellMax then some (BitVec.ofNat 64 a) else none
    | none => none

/-- The operands of an instruction of a program, with their labels replaced by what they stand for. -/
def operandsIn (program : List AsmLine) : List (Mode × AsmNumber) → Option (List Operand)
  | [] => some []
  | (m, n) :: rest =>
    match n.cell program, operandsIn program rest with
    | some c, some os => some (Operand.of m c :: os)
    | _, _ => none

/-- One item of a program as cells (R73, R74): `.data` emits its cells as they are. -/
def AsmLine.cells (program : List AsmLine) : AsmLine → Option (List Cell)
  | .label _ => some []
  | .instr mn ops =>
    match operandsIn program ops with
    | some os => assemble mn os
    | none => none
  | .data cells => some cells

/-- Items of a program as cells, in order; refused if one of them is. -/
def assembleItems (program : List AsmLine) : List AsmLine → Option (List Cell)
  | [] => some []
  | l :: rest =>
    match l.cells program, assembleItems program rest with
    | some a, some b => some (a ++ b)
    | _, _ => none

/-- The image of an assembly program from address 0 on (R72 to R74); refused if an item is, or if a label stands
twice (log entry 15). -/
def assembleProgram (program : List AsmLine) : Option (List Cell) :=
  if (labelsOf program).Nodup then assembleItems program program else none

/-- The first operands of an instruction, one for each parameter cell, with the modes of its slots. -/
def operandsFrom (i : Instr) : Nat → List Cell → List Operand
  | _, [] => []
  | k, p :: rest => Operand.of (i.modeOfSlot k) p :: operandsFrom i (k + 1) rest

/-- Disassembly of the instruction at the front of a list of cells (R75): the mnemonic, its operands (ignored
digits print as nothing), and the cells left over; none where the first cell is illegal or a parameter cell
is missing. -/
def disassemble : List Cell → Option (Mnemonic × List Operand × List Cell)
  | [] => none
  | c :: rest =>
    match decode c with
    | .illegal _ => none
    | .legal i =>
      if i.nparams ≤ rest.length then
        some (i.mnemonic, operandsFrom i 1 (rest.take i.nparams), rest.drop i.nparams)
      else none

/-- The four cells of a longest instruction whose bits are `w`, numbered as spec/opcode_table.json numbers
them: the first cell is bits 63..0, the next bits 127..64, and so on; every bit at or above `nbits` is 0. -/
def cellsOfWord (nbits w : Nat) : List Cell :=
  let v := w % 2 ^ nbits
  [BitVec.ofNat 64 v, BitVec.ofNat 64 (v / 2 ^ 64), BitVec.ofNat 64 (v / 2 ^ 128), BitVec.ofNat 64 (v / 2 ^ 192)]

/-- The instruction the decoder reads from the table's word: `decode` of its first cell. -/
def decodeTableWord (nbits w : Nat) : Option Instr :=
  match cellsOfWord nbits w with
  | [] => none
  | c :: _ =>
    match decode c with
    | .illegal _ => none
    | .legal i => some i

end Sys2Proof
end

