-- ==== Sys2Proof/Machine/State.lean ====
section
/-! DEFINITION. The state of one machine instance, the tuple `(M, pc, rb, inq, st)` (10_state.md R20 to R37),
as plain data; the reasons a step can stop; and the state right after reset. -/

namespace Sys2Proof.Machine

/-- The three kinds of fault, by name: the spec gives no numeric codes (60_exceptions.md R190). -/
inductive FaultKind where
  | illegalInstruction
  | addressFault
  | arithmeticOverflow
deriving DecidableEq, Repr

/-- The fault record (R29, R198): the kind, the raw instruction cell of the faulting instruction, and the
address it was fetched from. -/
structure FaultRecord where
  kind : FaultKind
  cell : Cell
  pc : Addr
deriving DecidableEq, Repr

/-- The run-state `st` (R26). The output latch (R28) and the fault record (R29) are its payloads and exist in
no other value of it. -/
inductive RunState where
  /-- will execute the instruction at `pc` when stepped (R27) -/
  | running
  /-- an Out has produced the cell `v`; resumable -/
  | suspendedOnOutput (v : Cell)
  /-- an In found the queue empty; resumable -/
  | suspendedOnInput
  /-- terminal -/
  | halted
  /-- terminal -/
  | faulted (record : FaultRecord)
deriving DecidableEq, Repr

/-- The memory tape `M` (R23): the cells that are not 0, as pairs of address and value with addresses strictly
rising; every address not listed holds 0 (R41). The unit is the cell: no byte of a cell is addressable (R40,
R43, R46). Log entry 2. -/
structure Memory where
  cells : List (Nat × Cell)
deriving DecidableEq, Repr

/-- The architectural state of one instance, complete (R30). -/
structure State where
  /-- the memory tape `M` (R23) -/
  mem : Memory
  /-- the program counter, unsigned (R21) -/
  pc : Addr
  /-- the relative base, signed (R22) -/
  rb : Cell
  /-- the input queue, front first (R24) -/
  inq : List Cell
  /-- the run-state, with the output latch or the fault record (R26, R28, R29) -/
  st : RunState
deriving DecidableEq, Repr

/-- Reasons for which the MODEL stops with a fault: there are none. Every fault of the spec is taken as R196
describes it, in a next state whose `st` is `faulted`; and every address exists (R50, R51). -/
inductive Fault where
deriving DecidableEq, Repr

/-- Reasons for which the model gives a situation no meaning ("refused" in the spec's glossary). -/
inductive Refusal where
  /-- raised by `exec` for an instruction that has no meaning yet; safe. No arm of `exec` raises it. -/
  | notModelled (mnemonic : String)
  /-- raised by every access to an address at or above MEM_LIMIT (R44), so never with the spec's default,
  none; safe. -/
  | beyondMemLimit
  /-- raised by the host operations construct, feed and poke for a value that is no cell (R162, R165, R174);
  safe. -/
  | valueNotCell
  /-- raised by the host operation feed_text for a character with no ASCII code (R166); safe. -/
  | characterNotAscii
deriving DecidableEq, Repr

/-- The memory in which every cell is 0. -/
def Memory.empty : Memory := ⟨[]⟩

/-- The machine right after reset (R37, R220): `construct` of the empty image with no input. -/
def State.reset : State where
  mem := Memory.empty
  pc := 0
  rb := 0
  inq := []
  st := .running

end Sys2Proof.Machine
end

