-- ==== Sys2Proof/Machine/Ops.lean ====
section
/-! DEFINITION. The named operations over memory and registers: reading and writing a cell, entering a fault,
suspending and resuming, fetching and decoding. There are no general registers (10_state.md R20) and no
register is hard-wired; `pc`, `rb`, `inq` and `st` each have one home in `State`. -/

namespace Sys2Proof.Machine

/-- What a step, a meaning or a host operation answers. -/
abbrev Answer := Host.Outcome State Fault Refusal

/-- The result of one stage of a step: a value, a fault to raise (60_exceptions.md R190), or a situation the
model gives no meaning. -/
inductive Res (α : Type) where
  | ok (a : α)
  | raise (k : FaultKind)
  | refuse (r : Refusal)
deriving DecidableEq, Repr

/-- The stages of a step one after the other: the first that does not answer a value ends the step
(40_fetch_decode_resolve.md R80, R199). -/
def Res.bind {α β : Type} (x : Res α) (f : α → Res β) : Res β :=
  match x with
  | .ok a => f a
  | .raise k => .raise k
  | .refuse r => .refuse r

/-- The value at an address of a list of cells: 0 where it is not listed. -/
def lookupCell : List (Nat × Cell) → Nat → Cell
  | [], _ => 0
  | (k, w) :: rest, a => if k = a then w else lookupCell rest a

/-- A list of cells with the value `v`, not 0, at an address; the order of addresses is kept. -/
def insertCell (a : Nat) (v : Cell) : List (Nat × Cell) → List (Nat × Cell)
  | [] => [(a, v)]
  | (k, w) :: rest =>
    if a < k then (a, v) :: (k, w) :: rest
    else if a = k then (a, v) :: rest
    else (k, w) :: insertCell a v rest

/-- A list of cells with no entry at an address. -/
def eraseCell (a : Nat) (l : List (Nat × Cell)) : List (Nat × Cell) :=
  l.filter fun e => decide (e.1 ≠ a)

/-- `MemRead(addr, 1)` (20_memory.md R41): the cell at an address, 0 if nothing was written there. -/
def Memory.read (m : Memory) (a : Addr) : Cell := lookupCell m.cells a.toNat

/-- `MemWrite(addr, 1, v)` (20_memory.md R42): only the cell at `a` changes. Writing 0 removes the entry, so
that equal memories are equal data. -/
def Memory.write (m : Memory) (a : Addr) (v : Cell) : Memory :=
  ⟨if v = 0 then eraseCell a.toNat m.cells else insertCell a.toNat v m.cells⟩

/-- Addresses strictly rising from `low` on and at most ADDR_MAX, and no value 0. -/
def canonicalFrom (low : Nat) : List (Nat × Cell) → Bool
  | [] => true
  | (k, w) :: rest => decide (low ≤ k) && decide (k ≤ addrMax) && decide (w ≠ 0) && canonicalFrom (k + 1) rest

/-- The canonical form of a memory: every address lies in 0 .. ADDR_MAX and is listed once, in rising order,
and no listed cell holds 0, the value of an unlisted one (R23). -/
def Memory.wf (m : Memory) : Bool := canonicalFrom 0 m.cells

/-- One access of a step or of the host, under a capacity: refused at or above a limit (R44). -/
def access {α : Type} (limit : Option Nat) (a : Addr) (x : α) : Res α :=
  if Config.within limit a then .ok x else .refuse .beyondMemLimit

/-- A cell read (R41) under MEM_LIMIT (R44). -/
def load (s : State) (a : Addr) : Res Cell := access Config.memLimit a (s.mem.read a)

/-- A cell write (R42) under MEM_LIMIT (R44). -/
def store (s : State) (a : Addr) (v : Cell) : Res State :=
  access Config.memLimit a { s with mem := s.mem.write a v }

/-- The last action of a step that goes on in sequence: `pc <- pc + n` (43_branch.md R124). The check of
`checkTop` has passed, so that nothing wraps (R83). -/
def State.advance (s : State) (n : Nat) : State := { s with pc := s.pc + BitVec.ofNat 64 n }

/-- Write of the program counter. -/
def State.setPc (s : State) (a : Addr) : State := { s with pc := a }

/-- Write of the relative base. -/
def State.setRb (s : State) (v : Cell) : State := { s with rb := v }

/-- Write of the input queue. -/
def State.setInq (s : State) (q : List Cell) : State := { s with inq := q }

/-- Write of the memory tape. -/
def State.setMem (s : State) (m : Memory) : State := { s with mem := m }

/-- Write of the run-state; `suspend S` of 00_scope.md R11 is this with a suspended state. -/
def State.setSt (s : State) (r : RunState) : State := { s with st := r }

/-- The instruction cell `c = M[pc]` (R81). -/
def State.instrCell (s : State) : Cell := s.mem.read s.pc

/-- TAKING A FAULT, `raise K(c, pc)` (60_exceptions.md R196): `st <- Faulted(K, c, pc)` with the instruction
cell and its address, and nothing else. There is no handler, no saved register and no mode. There is no return
from a fault either (R200): a faulted machine takes no step (`State.resume`). -/
def State.takeFault (s : State) (k : FaultKind) : State :=
  s.setSt (.faulted { kind := k, cell := s.instrCell, pc := s.pc })

/-- The end of a step: the state its last stage answers, or the fault taken in the state BEFORE the step, so
that a faulting instruction has no other effect (R197), or a refusal. -/
def settle (s : State) (x : Res State) : Answer :=
  match x with
  | .ok t => .next t
  | .raise k => .next (s.takeFault k)
  | .refuse r => .refused r

/-- The fetch and decode stages of a step (R80 to R82): an illegal cell raises IllegalInstruction before any
parameter cell is read. -/
def fetchDecode (s : State) : Res Instr :=
  (load s s.pc).bind fun c =>
    match decode c with
    | .illegal _ => .raise .illegalInstruction
    | .legal i => .ok i

/-- The state a `run` call starts to step from (47_engine_and_host.md R167): Running, from Running and from
both suspended states (R171, R172); none from the terminal states, in which `run` takes no step (R169). -/
def State.resume (s : State) : Option State :=
  match s.st with
  | .running => some (s.setSt .running)
  | .suspendedOnOutput _ => some (s.setSt .running)
  | .suspendedOnInput => some (s.setSt .running)
  | .halted => none
  | .faulted _ => none

/-- One step of the run loop over the meanings `ex` of the instructions (R80, R167): resume, fetch, decode,
execute. In a terminal state nothing changes (R169). Log entry 4. -/
def stepWith (ex : Instr → State → Answer) (s : State) : Answer :=
  match s.resume with
  | none => .next s
  | some r =>
    match fetchDecode r with
    | .ok i => ex i r
    | .raise k => .next (r.takeFault k)
    | .refuse x => .refused x

/-- A memory with consecutive cells from an address on, no cell placed past ADDR_MAX. -/
def Memory.place (m : Memory) (a : Nat) : List Cell → Memory
  | [] => m
  | c :: rest => (if a ≤ addrMax then m.write (BitVec.ofNat 64 a) c else m).place (a + 1) rest

end Sys2Proof.Machine
end

