-- ==== Sys2Proof/Machine/Flags.lean ====
section
/-! DEFINITION. The machine has no flags, condition codes or predicates (10_state.md R25). What other machines
compute into flags is here a test on exact values: whether a result is a cell (41_arithmetic.md R103), and the
truth values that Lt and Equ write (00_scope.md R11). -/

namespace Sys2Proof.Machine

/-- The cell with an exact value, where there is one: `CELL_MIN <= v <= CELL_MAX` (R5). -/
def exactCell (v : Int) : Option Cell :=
  if cellMin ≤ v ∧ v ≤ cellMax then some (BitVec.ofInt 64 v) else none

/-- The narrowing of an exact result: ArithmeticOverflow where it is not a cell (R103). Never a wrap. -/
def narrow (v : Int) : Res Cell :=
  match exactCell v with
  | some c => .ok c
  | none => .raise .arithmeticOverflow

/-- `bool(p)`: 1 if `p` holds, else 0 (R11). -/
def boolCell (p : Bool) : Cell := if p then 1 else 0

end Sys2Proof.Machine
end

