-- ==== Sys2Proof/Machine/Operands.lean ====
section
/-! DEFINITION. The stages of a step between decode and execute: the legality of a written slot, the top of
the address space, and the operand resolver (40_fetch_decode_resolve.md R83 to R94). -/

namespace Sys2Proof.Machine

/-- Mode Immediate on a written slot is IllegalInstruction (30_encoding.md R67 (e)). `decode` never answers
such an instruction; `exec` gives the ill-formed term the same outcome. -/
def checkWritten (m : Mode) : Res Unit := if m.writable then .ok () else .raise .illegalInstruction

/-- The top-of-space check of an instruction with `n` parameters (R83): AddressFault when its sequential
successor address `pc + n + 1` is past ADDR_MAX. -/
def checkTop (s : State) (n : Nat) : Res Unit :=
  if addrMax < s.pc.toNat + n + 1 then .raise .addressFault else .ok ()

/-- The address of the parameter cell of slot `k`, counted from 1 (R84). -/
def slotAddr (s : State) (k : Nat) : Addr := s.pc + BitVec.ofNat 64 k

/-- A resolved address from a signed cell: AddressFault where it is negative (R88). -/
def nonNegative (p : Cell) : Res Addr := if p.toInt < 0 then .raise .addressFault else .ok p

/-- `Resolve(k, m)` (R93): the address of the operand of slot `k`. In Relative mode the sum is exact, and
overflow is found before a negative sum (R89). -/
def resolve (s : State) (k : Nat) (m : Mode) : Res Addr :=
  (load s (slotAddr s k)).bind fun p =>
    match m with
    | .position => nonNegative p
    | .immediate => .ok (slotAddr s k)
    | .relative => (narrow (p.toInt + s.rb.toInt)).bind nonNegative

/-- Resolution of a one-slot instruction. -/
def resolve1 (s : State) (m1 : Mode) : Res Addr :=
  (checkTop s 1).bind fun _ => resolve s 1 m1

/-- Resolution of a two-slot instruction, slot 1 first, before anything executes (R90). -/
def resolve2 (s : State) (m1 m2 : Mode) : Res (Addr × Addr) :=
  (checkTop s 2).bind fun _ =>
    (resolve s 1 m1).bind fun a1 =>
      (resolve s 2 m2).bind fun a2 => .ok (a1, a2)

/-- Resolution of a three-slot instruction, slots in order, before anything executes (R90). -/
def resolve3 (s : State) (m1 m2 m3 : Mode) : Res (Addr × Addr × Addr) :=
  (checkTop s 3).bind fun _ =>
    (resolve s 1 m1).bind fun a1 =>
      (resolve s 2 m2).bind fun a2 =>
        (resolve s 3 m3).bind fun a3 => .ok (a1, a2, a3)

/-- The shape of Add, Mul, Lt and Equ (R100, R101, R130, R131): read slots 1 and 2, write `f` of the two to
slot 3, advance by 4. Both reads precede the write (20_memory.md R52). -/
def binaryStore (f : Cell → Cell → Res Cell) (m1 m2 m3 : Mode) (s : State) : Answer :=
  settle s <|
    (checkWritten m3).bind fun _ =>
      (resolve3 s m1 m2 m3).bind fun a =>
        (load s a.1).bind fun x =>
          (load s a.2.1).bind fun y =>
            (f x y).bind fun r =>
              (store s a.2.2 r).bind fun t => .ok (t.advance 4)

/-- The shape of Jit and Jif (43_branch.md R120, R121): read the condition and the target, jump where the
condition holds and the target is not negative (R122), else go on at `pc + 3`. -/
def jumpIf (cond : Cell → Bool) (m1 m2 : Mode) (s : State) : Answer :=
  settle s <|
    (resolve2 s m1 m2).bind fun a =>
      (load s a.1).bind fun x =>
        (load s a.2).bind fun t =>
          if cond x then (nonNegative t).bind fun p => .ok (s.setPc p) else .ok (s.advance 3)

end Sys2Proof.Machine
end

