-- ==== Sys2Proof/Machine/Arithmetic.lean ====
section
/-! DEFINITION. Add and Mul (41_arithmetic.md R100, R101). -/

namespace Sys2Proof.Machine

/-- Add (R100): the exact signed sum, ArithmeticOverflow where it is not a cell. -/
def execAdd (m1 m2 m3 : Mode) (s : State) : Answer :=
  binaryStore (fun x y => narrow (x.toInt + y.toInt)) m1 m2 m3 s

/-- Mul (R101): the exact signed product, ArithmeticOverflow where it is not a cell. -/
def execMul (m1 m2 m3 : Mode) (s : State) : Answer :=
  binaryStore (fun x y => narrow (x.toInt * y.toInt)) m1 m2 m3 s

end Sys2Proof.Machine
end

