-- ==== Sys2Proof/Machine/Branch.lean ====
section
/-! DEFINITION. Jit and Jif (43_branch.md R120, R121). -/

namespace Sys2Proof.Machine

/-- Jit (R120): jump if the condition cell is not 0. -/
def execJit (m1 m2 : Mode) (s : State) : Answer := jumpIf (fun x => decide (x ≠ 0)) m1 m2 s

/-- Jif (R121): jump if the condition cell is 0. -/
def execJif (m1 m2 : Mode) (s : State) : Answer := jumpIf (fun x => decide (x = 0)) m1 m2 s

end Sys2Proof.Machine
end

