-- ==== Sys2Proof/Machine/Compare.lean ====
section
/-! DEFINITION. Lt and Equ (44_compare.md R130, R131). -/

namespace Sys2Proof.Machine

/-- Lt (R130): 1 if slot 1 is less than slot 2 as signed integers, else 0. -/
def execLt (m1 m2 m3 : Mode) (s : State) : Answer :=
  binaryStore (fun x y => .ok (boolCell (decide (x.toInt < y.toInt)))) m1 m2 m3 s

/-- Equ (R131): 1 if the two cells are equal, else 0. -/
def execEqu (m1 m2 m3 : Mode) (s : State) : Answer :=
  binaryStore (fun x y => .ok (boolCell (decide (x = y)))) m1 m2 m3 s

end Sys2Proof.Machine
end

