-- ==== Sys2Proof/Machine/Halt.lean ====
section
/-! DEFINITION. Halt (46_halt.md R150). -/

namespace Sys2Proof.Machine

/-- Halt (R150): `st <- Halted` and nothing else, at any `pc`; it has no parameters, so the top-of-space check
does not apply (R83). -/
def execHalt (s : State) : Answer := .next (s.setSt .halted)

end Sys2Proof.Machine
end

