-- ==== Sys2Proof/Machine/Io.lean ====
section
/-! DEFINITION. In and Out (42_io.md R110, R111). -/

namespace Sys2Proof.Machine

/-- In (R110). The destination is resolved before the queue is looked at. On an empty queue only `st` changes;
otherwise the front of the queue is stored, and removed. -/
def execInp (m1 : Mode) (s : State) : Answer :=
  settle s <|
    (checkWritten m1).bind fun _ =>
      (resolve1 s m1).bind fun a =>
        match s.inq with
        | [] => .ok (s.setSt .suspendedOnInput)
        | v :: rest => (store s a v).bind fun t => .ok ((t.setInq rest).advance 2)

/-- Out (R111). The value is read, `pc` advances, and the machine suspends with the value in the latch. -/
def execOut (m1 : Mode) (s : State) : Answer :=
  settle s <|
    (resolve1 s m1).bind fun a =>
      (load s a).bind fun v => .ok ((s.advance 2).setSt (.suspendedOnOutput v))

end Sys2Proof.Machine
end

