-- ==== Sys2Proof/Machine/RelativeBase.lean ====
section
/-! DEFINITION. Rbo (45_relative_base.md R140). -/

namespace Sys2Proof.Machine

/-- Rbo (R140): add the operand to the relative base, ArithmeticOverflow where the new base is not a cell. The
operand itself is resolved with the old base. -/
def execRbo (m1 : Mode) (s : State) : Answer :=
  settle s <|
    (resolve1 s m1).bind fun a =>
      (load s a).bind fun x =>
        (narrow (s.rb.toInt + x.toInt)).bind fun r => .ok ((s.setRb r).advance 2)

end Sys2Proof.Machine
end

