-- ==== Sys2Proof/Machine/Dispatch.lean ====
section
/-! DEFINITION. The dispatch of an instruction to its meaning. The mode digits of slots an opcode lacks are
ignored here (30_encoding.md R68). -/

namespace Sys2Proof.Machine

/-- The execution of one decoded instruction in a state: every stage of R80 after decode. -/
def exec (i : Instr) (s : State) : Host.Outcome State Fault Refusal :=
  match i with
  | .add m1 m2 m3 => Sys2Proof.Machine.execAdd m1 m2 m3 s
  | .mul m1 m2 m3 => Sys2Proof.Machine.execMul m1 m2 m3 s
  | .inp m1 _ _ => Sys2Proof.Machine.execInp m1 s
  | .out m1 _ _ => Sys2Proof.Machine.execOut m1 s
  | .jit m1 m2 _ => Sys2Proof.Machine.execJit m1 m2 s
  | .jif m1 m2 _ => Sys2Proof.Machine.execJif m1 m2 s
  | .lt m1 m2 m3 => Sys2Proof.Machine.execLt m1 m2 m3 s
  | .equ m1 m2 m3 => Sys2Proof.Machine.execEqu m1 m2 m3 s
  | .rbo m1 _ _ => Sys2Proof.Machine.execRbo m1 s
  | .halt _ _ _ => Sys2Proof.Machine.execHalt s

end Sys2Proof.Machine
end

