-- ==== Sys2Proof/Machine/Step.lean ====
section
/-! DEFINITION. One step of the machine, and the placing of an instruction where the next step fetches. -/

namespace Sys2Proof.Machine

/-- One step of the run loop (40_fetch_decode_resolve.md R80; 47_engine_and_host.md R167): from Running, the
step of R80; from a suspended state, the first step of the next `run`; from a terminal state, what `run` does
there, nothing. -/
def step (s : State) : Host.Outcome State Fault Refusal := stepWith exec s

/-- `s` with the instruction whose bits are `w` (numbered as spec/opcode_table.json numbers them) placed at
`pc`, where the next step fetches, and `st` Running, so that it does fetch. It stands for `construct`, which
loads every program (log entry 7). -/
def State.withFetchWord (s : State) (nbits w : Nat) : State :=
  (s.setMem (s.mem.place s.pc.toNat (cellsOfWord nbits w))).setSt .running

end Sys2Proof.Machine
end

