-- ==== Sys2Proof/Machine/HostOps.lean ====
section
/-! DEFINITION. The host surface: the seven operations through which the environment acts on instances between
runs (47_engine_and_host.md R160 to R180). No operation reads or writes `pc` or `rb`, removes input or sets
`st` directly (R161). A host operation during a `run` of the same instance has no move here (log entry 8). -/

namespace Sys2Proof.Machine

/-- What `run` returns (R168). -/
inductive StopReason where
  | output (v : Cell)
  | needsInput
  | halted
  | faulted (record : FaultRecord)
deriving DecidableEq, Repr

/-- The StopReason of a run-state; none for Running, which `run` never returns (R168). -/
def RunState.stopReason : RunState → Option StopReason
  | .running => none
  | .suspendedOnOutput v => some (.output v)
  | .suspendedOnInput => some .needsInput
  | .halted => some .halted
  | .faulted r => some (.faulted r)

/-- A sequence of integers as cells; none if one of them is no cell (R162). -/
def exactCells : List Int → Option (List Cell)
  | [] => some []
  | v :: rest =>
    match exactCell v, exactCells rest with
    | some c, some cs => some (c :: cs)
    | _, _ => none

/-- The instance `construct` creates from an image and an initial input that are cells (R37, R162). -/
def State.loaded (image input : List Cell) : State where
  mem := Memory.empty.place 0 image
  pc := 0
  rb := 0
  inq := input
  st := .running

/-- `construct(program, initial_input)` (R162): the reset state of R37 with the image from address 0 on;
refused if a value is no cell, and then no instance exists. -/
def construct (program input : List Int) : Answer :=
  match exactCells program, exactCells input with
  | some p, some q => .next (State.loaded p q)
  | _, _ => .refused .valueNotCell

/-- `feed(value)` (R164, R165): append to the back of the queue; refused if the value is no cell. -/
def feed (v : Int) (s : State) : Answer :=
  match exactCell v with
  | some c => .next (s.setInq (s.inq ++ [c]))
  | none => .refused .valueNotCell

/-- The cells of the ASCII codes of characters; none if one of them has no ASCII code (R166). -/
def asciiCells : List Char → Option (List Cell)
  | [] => some []
  | c :: rest =>
    if c.toNat ≤ 127 then
      match asciiCells rest with
      | some cs => some (BitVec.ofNat 64 c.toNat :: cs)
      | none => none
    else none

/-- `feed_text(s)` (R166), the string as its characters in order: append their ASCII codes; refused as a whole
if a character has none. -/
def feedText (text : List Char) (s : State) : Answer :=
  match asciiCells text with
  | some cs => .next (s.setInq (s.inq ++ cs))
  | none => .refused .characterNotAscii

/-- `peek(addr)` (R173): the cell at an address; nothing changes. None for an address at or above MEM_LIMIT,
which is refused (R44). -/
def peek (a : Addr) (s : State) : Option Cell :=
  if Config.within Config.memLimit a then some (s.mem.read a) else none

/-- `poke(addr, value)` (R174): only the cell at the address changes; refused if the value is no cell. -/
def poke (a : Addr) (v : Int) (s : State) : Answer :=
  match exactCell v with
  | some c => settle s (store s a c)
  | none => .refused .valueNotCell

/-- `clone()` (R175): the original, unchanged, and an independent copy of its whole state. -/
def clone (s : State) : State × State := (s, s)

/-- How a `run` of bounded length came out. -/
inductive RunResult where
  /-- `run` returned this StopReason and left this state -/
  | stopped (r : StopReason) (s : State)
  /-- a step was refused; never with the spec's default MEM_LIMIT -/
  | refused (r : Refusal)
  /-- the fuel ran out with the machine still Running; no StopReason (R170) -/
  | unfinished (s : State)
deriving DecidableEq, Repr

/-- `run()` (R167), for at most `fuel` steps: step until `st` is not Running. In a terminal state the one step
changes nothing and the same StopReason is returned (R169). The fuel is the model's device (R170; log
entry 6). -/
def runFor : Nat → State → RunResult
  | 0, s => .unfinished s
  | n + 1, s =>
    match step s with
    | .next t =>
      match t.st.stopReason with
      | some r => .stopped r t
      | none => runFor n t
    | .fault f => nomatch f
    | .refused r => .refused r

/-- The *drive* convention (R180): `run` again and again, collecting outputs, up to the first StopReason that
is no Output; at most `calls` runs of at most `fuel` steps. -/
def drive (fuel : Nat) : Nat → State → List Cell × RunResult
  | 0, s => ([], .unfinished s)
  | n + 1, s =>
    match runFor fuel s with
    | .stopped (.output v) t => (v :: (drive fuel n t).1, (drive fuel n t).2)
    | .stopped r t => ([], .stopped r t)
    | .refused r => ([], .refused r)
    | .unfinished t => ([], .unfinished t)

/-- One call of the host on a collection of instances, each named by its place (R160, R178). -/
inductive HostCall where
  | construct (program input : List Int)
  | feed (k : Nat) (v : Int)
  | feedText (k : Nat) (text : List Char)
  | run (k : Nat)
  | peek (k : Nat) (a : Addr)
  | poke (k : Nat) (a : Addr) (v : Int)
  | clone (k : Nat)
deriving DecidableEq, Repr

/-- What a call of the host returns (R160). -/
inductive HostReply where
  /-- a new instance, at this place -/
  | created (k : Nat)
  /-- feed, feed_text and poke return nothing -/
  | done
  | stopped (r : StopReason)
  | value (c : Cell)
  /-- the call had no effect -/
  | refused (r : Refusal)
  /-- the call named no instance, and had no effect -/
  | noInstance
deriving DecidableEq, Repr

/-- The reply and the collection after a call that answers a new state of instance `k`. -/
def updateInstance (ms : List State) (k : Nat) (x : Answer) : HostReply × List State :=
  match x with
  | .next t => (.done, ms.set k t)
  | .fault f => nomatch f
  | .refused r => (.refused r, ms)

/-- A call of the host (R160): it acts on the instance it names and on no other (R36, R178). None for a `run`
that does not return within the fuel (R170). -/
def hostCall (fuel : Nat) (call : HostCall) (ms : List State) : Option (HostReply × List State) :=
  match call with
  | .construct program input =>
    match Sys2Proof.Machine.construct program input with
    | .next t => some (.created ms.length, ms ++ [t])
    | .fault f => nomatch f
    | .refused r => some (.refused r, ms)
  | .feed k v =>
    match ms[k]? with
    | some s => some (updateInstance ms k (Sys2Proof.Machine.feed v s))
    | none => some (.noInstance, ms)
  | .feedText k text =>
    match ms[k]? with
    | some s => some (updateInstance ms k (Sys2Proof.Machine.feedText text s))
    | none => some (.noInstance, ms)
  | .run k =>
    match ms[k]? with
    | some s =>
      match runFor fuel s with
      | .stopped r t => some (.stopped r, ms.set k t)
      | .refused r => some (.refused r, ms)
      | .unfinished _ => none
    | none => some (.noInstance, ms)
  | .peek k a =>
    match ms[k]? with
    | some s =>
      match Sys2Proof.Machine.peek a s with
      | some c => some (.value c, ms)
      | none => some (.refused .beyondMemLimit, ms)
    | none => some (.noInstance, ms)
  | .poke k a v =>
    match ms[k]? with
    | some s => some (updateInstance ms k (Sys2Proof.Machine.poke a v s))
    | none => some (.noInstance, ms)
  | .clone k =>
    match ms[k]? with
    | some s => some (.created ms.length, ms.set k (Sys2Proof.Machine.clone s).1 ++ [(Sys2Proof.Machine.clone s).2])
    | none => some (.noInstance, ms)

end Sys2Proof.Machine
end

