-- ==== Sys2Proof/Safety.lean ====
section
/-! DEFINITION. The terms the claims use: the values, addresses and encodings of the spec written as plain
arithmetic, independent of the resolver and the decoder they are compared with; what an instruction stores to;
and the invariants of the machine. -/

namespace Sys2Proof.Machine

/-- `v` is the value of a cell: `CELL_MIN <= v <= CELL_MAX` (00_scope.md R5). -/
abbrev IsCell (v : Int) : Prop := cellMin ≤ v ∧ v ≤ cellMax

/-- The cell with the value `v`, for a `v` that is the value of a cell. -/
def cellOf (v : Int) : Cell := BitVec.ofInt 64 v

/-- The value of a memory cell. -/
def State.valueAt (s : State) (a : Addr) : Int := (s.mem.read a).toInt

/-- The value `P_k` of the parameter cell of slot `k` (40_fetch_decode_resolve.md R84). -/
def State.param (s : State) (k : Nat) : Int := s.valueAt (s.pc + BitVec.ofNat 64 k)

/-- An instruction of `n` parameters and its successor address fit below the top of the address space (R83). -/
abbrev State.room (s : State) (n : Nat) : Prop := s.pc.toNat + n + 1 ≤ addrMax

/-- `a` is the resolved address of slot `k` in mode `m` (R85 to R89): the parameter, the address of the
parameter cell, or the exact sum of parameter and relative base, none of them negative. -/
def State.slotAt (s : State) (k : Nat) (m : Mode) (a : Addr) : Prop :=
  match m with
  | .position => 0 ≤ s.param k ∧ (a.toNat : Int) = s.param k
  | .immediate => a.toNat = s.pc.toNat + k
  | .relative => 0 ≤ s.param k + s.rb.toInt ∧ s.param k + s.rb.toInt ≤ cellMax ∧
      (a.toNat : Int) = s.param k + s.rb.toInt

/-- The state after fault `k` (60_exceptions.md R196, R198): only `st` changed, with the instruction cell and
its address in the record. -/
def State.withFault (s : State) (k : FaultKind) : State :=
  { s with st := .faulted { kind := k, cell := s.mem.read s.pc, pc := s.pc } }

/-- An instruction has the encoding `op + 100*m1 + 1000*m2 + 10000*m3` and the width `w` (30_encoding.md R60,
R61, R63). -/
def EncodedAs (i : Instr) (op w : Nat) : Prop :=
  (encode i).toNat = op + 100 * (i.modeOfSlot 1).digit + 1000 * (i.modeOfSlot 2).digit
    + 10000 * (i.modeOfSlot 3).digit ∧ i.width = w

/-- The opcode numbers (R63). -/
def legalOpcodes : List Nat := [1, 2, 3, 4, 5, 6, 7, 8, 9, 99]

/-- R67, causes (a) to (e), on the value of an instruction cell. -/
def IllegalCell (c : Cell) : Prop :=
  c.toInt < 0 ∨ 99999 < c.toInt ∨ c.toNat % 100 ∉ legalOpcodes ∨
  2 < c.toNat / 100 % 10 ∨ 2 < c.toNat / 1000 % 10 ∨ 2 < c.toNat / 10000 % 10 ∨
  (c.toNat % 100 ∈ [1, 2, 7, 8] ∧ c.toNat / 10000 % 10 = 1) ∨
  (c.toNat % 100 = 3 ∧ c.toNat / 100 % 10 = 1)

/-- How many legal instruction cells each mnemonic has (R70). -/
def legalCellCount : Mnemonic → Nat
  | .add => 18
  | .mul => 18
  | .inp => 18
  | .out => 27
  | .jit => 27
  | .jif => 27
  | .lt => 18
  | .equ => 18
  | .rbo => 27
  | .halt => 27

/-- The address an instruction stores to, by the resolver its meaning uses; none for an instruction that
stores nothing and where the operands do not resolve (20_memory.md R48). -/
def storeAddr (i : Instr) (s : State) : Option Addr :=
  match i with
  | .add m1 m2 m3 => third (resolve3 s m1 m2 m3)
  | .mul m1 m2 m3 => third (resolve3 s m1 m2 m3)
  | .inp m1 _ _ => only (resolve1 s m1)
  | .out _ _ _ => none
  | .jit _ _ _ => none
  | .jif _ _ _ => none
  | .lt m1 m2 m3 => third (resolve3 s m1 m2 m3)
  | .equ m1 m2 m3 => third (resolve3 s m1 m2 m3)
  | .rbo _ _ _ => none
  | .halt _ _ _ => none
where
  /-- the destination of a three-slot instruction -/
  third : Res (Addr × Addr × Addr) → Option Addr
    | .ok a => some a.2.2
    | .raise _ => none
    | .refuse _ => none
  /-- the destination of a one-slot instruction -/
  only : Res Addr → Option Addr
    | .ok a => some a
    | .raise _ => none
    | .refuse _ => none

/-- `v` is the value that an instruction stores when it completes: the exact sum or product (41_arithmetic.md R100,
R101), 1 or 0 (44_compare.md R130, R131), or the front of the input queue (42_io.md R110); no value for an
instruction that stores nothing. -/
def storedValue (i : Instr) (s : State) (v : Int) : Prop :=
  match i with
  | .add m1 m2 _ => ∃ a1 a2, s.slotAt 1 m1 a1 ∧ s.slotAt 2 m2 a2 ∧ v = s.valueAt a1 + s.valueAt a2
  | .mul m1 m2 _ => ∃ a1 a2, s.slotAt 1 m1 a1 ∧ s.slotAt 2 m2 a2 ∧ v = s.valueAt a1 * s.valueAt a2
  | .inp _ _ _ => ∃ c rest, s.inq = c :: rest ∧ v = c.toInt
  | .out _ _ _ => False
  | .jit _ _ _ => False
  | .jif _ _ _ => False
  | .lt m1 m2 _ => ∃ a1 a2, s.slotAt 1 m1 a1 ∧ s.slotAt 2 m2 a2 ∧
      v = if s.valueAt a1 < s.valueAt a2 then 1 else 0
  | .equ m1 m2 _ => ∃ a1 a2, s.slotAt 1 m1 a1 ∧ s.slotAt 2 m2 a2 ∧
      v = if s.valueAt a1 = s.valueAt a2 then 1 else 0
  | .rbo _ _ _ => False
  | .halt _ _ _ => False

/-- An answer with its next state, if it is one, changed by `f`. -/
def Answer.mapNext (f : State → State) : Answer → Answer
  | .next t => .next (f t)
  | .fault r => .fault r
  | .refused r => .refused r

/-- The next state of an answer, if it is one. -/
def Answer.next? : Answer → Option State
  | .next t => some t
  | .fault _ => none
  | .refused _ => none

/-- The run-state is a terminal one (10_state.md R26). -/
def RunState.terminal : RunState → Bool
  | .running => false
  | .suspendedOnOutput _ => false
  | .suspendedOnInput => false
  | .halted => true
  | .faulted _ => true

/-- The run-state is a fault (60_exceptions.md R200). -/
def RunState.isFault : RunState → Bool
  | .running => false
  | .suspendedOnOutput _ => false
  | .suspendedOnInput => false
  | .halted => false
  | .faulted _ => true

/-- What each run-state says about the rest of the state, between two steps with no host operation in between
but `run`: which instruction led there and where `pc` stands (60_exceptions.md R197, R198, R202). -/
def State.stMeaning (s : State) : Prop :=
  match s.st with
  | .running => True
  | .suspendedOnOutput v =>
      2 ≤ s.pc.toNat ∧ ∃ m1 m2 m3 a, decode (s.mem.read (s.pc - 2)) = .legal (.out m1 m2 m3) ∧
        (s.setPc (s.pc - 2)).slotAt 1 m1 a ∧ v = s.mem.read a
  | .suspendedOnInput => s.inq = [] ∧ ∃ m1 m2 m3, decode (s.mem.read s.pc) = .legal (.inp m1 m2 m3)
  | .halted => ∃ m1 m2 m3, decode (s.mem.read s.pc) = .legal (.halt m1 m2 m3)
  | .faulted r => r.pc = s.pc ∧ r.cell = s.mem.read s.pc ∧
      (r.kind = .illegalInstruction ↔ IllegalCell r.cell)

/-- Slot `k` in Relative mode has a sum that is no cell (40_fetch_decode_resolve.md R89). -/
def State.sumOverflows (s : State) (k : Nat) (m : Mode) : Prop :=
  m = .relative ∧ ¬ IsCell (s.param k + s.rb.toInt)

/-- Slot `k` resolves to a negative address (R88). -/
def State.addressNegative (s : State) (k : Nat) (m : Mode) : Prop :=
  (m = .position ∧ s.param k < 0) ∨
    (m = .relative ∧ IsCell (s.param k + s.rb.toInt) ∧ s.param k + s.rb.toInt < 0)

/-- The execute stage of Add, Mul or Rbo has an exact result that is no cell (41_arithmetic.md R103). -/
def resultOverflows (i : Instr) (s : State) : Prop :=
  match i with
  | .add m1 m2 _ => ∃ a1 a2, s.slotAt 1 m1 a1 ∧ s.slotAt 2 m2 a2 ∧ ¬ IsCell (s.valueAt a1 + s.valueAt a2)
  | .mul m1 m2 _ => ∃ a1 a2, s.slotAt 1 m1 a1 ∧ s.slotAt 2 m2 a2 ∧ ¬ IsCell (s.valueAt a1 * s.valueAt a2)
  | .inp _ _ _ => False
  | .out _ _ _ => False
  | .jit _ _ _ => False
  | .jif _ _ _ => False
  | .lt _ _ _ => False
  | .equ _ _ _ => False
  | .rbo m1 _ _ => ∃ a1, s.slotAt 1 m1 a1 ∧ ¬ IsCell (s.rb.toInt + s.valueAt a1)
  | .halt _ _ _ => False

/-- The instruction is a jump that is taken: its condition cell decides so (43_branch.md R120, R121). -/
def jumpTaken (i : Instr) (s : State) : Prop :=
  match i with
  | .add _ _ _ => False
  | .mul _ _ _ => False
  | .inp _ _ _ => False
  | .out _ _ _ => False
  | .jit m1 _ _ => ∃ a1, s.slotAt 1 m1 a1 ∧ s.valueAt a1 ≠ 0
  | .jif m1 _ _ => ∃ a1, s.slotAt 1 m1 a1 ∧ s.valueAt a1 = 0
  | .lt _ _ _ => False
  | .equ _ _ _ => False
  | .rbo _ _ _ => False
  | .halt _ _ _ => False

/-- The instance whose state a call of the host may change (47_engine_and_host.md R160). -/
def HostCall.changes : HostCall → Option Nat
  | .construct _ _ => none
  | .feed k _ => some k
  | .feedText k _ => some k
  | .run k => some k
  | .peek _ _ => none
  | .poke k _ _ => some k
  | .clone _ => none

/-- What the next step adds to the relative base: the operand of an Rbo that completes, else 0
(45_relative_base.md R140). -/
def State.rboAdded (s : State) : Int :=
  match decode (s.mem.read s.pc) with
  | .illegal _ => 0
  | .legal i =>
    if i.mnemonic = .rbo ∧ s.st.terminal = false then
      match resolve1 s (i.modeOfSlot 1) with
      | .ok a => if IsCell (s.rb.toInt + s.valueAt a) then s.valueAt a else 0
      | .raise _ => 0
      | .refuse _ => 0
    else 0

/-- The sum of what the next `n` steps add to the relative base (10_state.md R31 (e)). -/
def rboTotal : Nat → State → Int
  | 0, _ => 0
  | n + 1, s =>
    match step s with
    | .next t => s.rboAdded + rboTotal n t
    | .fault _ => 0
    | .refused _ => 0

/-- The memory of a state is in its canonical form. -/
abbrev State.memCanonical (s : State) : Prop := s.mem.wf = true

end Sys2Proof.Machine
end

