-- ==== Sys2Proof/Certificates/Slice0/Obligations.lean ====
section
/-! DEFINITION. The statements for the provers, file by file of the spec. Unless a docstring names a log entry,
what a statement says is the spec's own. -/

open Sys2Proof Sys2Proof.Machine

/-! ## Encoding and decoding (30_encoding.md) -/

/-- R61, R66, R68: no digit of an encoding is dropped; every well-formed instruction is read back from its
instruction cell, with every mode in every slot. -/
def Obligations.DecodeOfEncode : Prop :=
  ∀ i : Instr, i.wellFormed = true → decode (encode i) = .legal i

/-- R61, R66: a cell that decodes is exactly `op + 100*m1 + 1000*m2 + 10000*m3` of what it decodes to, which is
well-formed. -/
def Obligations.EncodeOfDecode : Prop :=
  ∀ (c : Cell) (i : Instr), decode c = .legal i →
    i.wellFormed = true ∧ encode i = c ∧
      c.toNat = i.mnemonic.opcode + 100 * (i.modeOfSlot 1).digit + 1000 * (i.modeOfSlot 2).digit
        + 10000 * (i.modeOfSlot 3).digit

/-- R67: the illegal instruction cells are exactly those of causes (a) to (e), and a step on one takes
IllegalInstruction with no other effect. -/
def Obligations.IllegalCellsExactly : Prop :=
  (∀ c : Cell, IllegalCell c ↔ ∃ cause, decode c = .illegal cause) ∧
    ∀ s : State, s.st = .running → IllegalCell (s.mem.read s.pc) →
      step s = .next (s.withFault .illegalInstruction)

/-- R70: the number of legal cells of each instruction, 225 in all, every one in 1 .. 22299. -/
def Obligations.LegalCellCounts : Prop :=
  (∀ mn : Mnemonic, ∃ l : List Cell, l.Nodup ∧ l.length = legalCellCount mn ∧
      ∀ c : Cell, c ∈ l ↔ ∃ i, decode c = .legal i ∧ i.mnemonic = mn) ∧
    (∃ l : List Cell, l.Nodup ∧ l.length = 225 ∧ ∀ c : Cell, c ∈ l ↔ ∃ i, decode c = .legal i) ∧
    ∀ (c : Cell) (i : Instr), decode c = .legal i → 1 ≤ c.toInt ∧ c.toInt ≤ 22299

/-- R61, R63, R66, R67 on cells of the spec's decode table (95_test_vectors.md section 2.1): a sanity check. -/
def Obligations.DecodeSampleCells : Prop :=
  decode 1002 = .legal (.mul .position .immediate .position) ∧
  decode 21201 = .legal (.add .relative .immediate .relative) ∧
  decode 203 = .legal (.inp .relative .position .position) ∧
  decode 104 = .legal (.out .immediate .position .position) ∧
  decode 2205 = .legal (.jit .relative .relative .position) ∧
  decode 1206 = .legal (.jif .relative .immediate .position) ∧
  decode 1107 = .legal (.lt .immediate .immediate .position) ∧
  decode 22208 = .legal (.equ .relative .relative .relative) ∧
  decode 209 = .legal (.rbo .relative .position .position) ∧
  decode 99 = .legal (.halt .position .position .position) ∧
  decode 0 = .illegal .badOpcode ∧
  decode 399 = .illegal .badModeDigit ∧
  decode 103 = .illegal .immediateWritten ∧
  decode 100001 = .illegal .aboveFiveDigits ∧
  decode (-1) = .illegal .negative

/-- R68: the digits of absent slots must be 0, 1 or 2, for every opcode, slot and digit, and select nothing; the
spec's examples of them; and the assembler emits 0 there. -/
def Obligations.AbsentSlotDigitsIgnored : Prop :=
  (∀ (m1 m2 m3 n1 n2 n3 : Mode) (s : State),
    exec (.inp m1 m2 m3) s = exec (.inp m1 n2 n3) s ∧
    exec (.out m1 m2 m3) s = exec (.out m1 n2 n3) s ∧
    exec (.rbo m1 m2 m3) s = exec (.rbo m1 n2 n3) s ∧
    exec (.jit m1 m2 m3) s = exec (.jit m1 m2 n3) s ∧
    exec (.jif m1 m2 m3) s = exec (.jif m1 m2 n3) s ∧
    exec (.halt m1 m2 m3) s = exec (.halt n1 n2 n3) s) ∧
  (∀ m1 m2 m3 : Mode,
    (m1 ≠ .immediate → decode (encode (.inp m1 m2 m3)) = .legal (.inp m1 m2 m3)) ∧
    decode (encode (.out m1 m2 m3)) = .legal (.out m1 m2 m3) ∧
    decode (encode (.rbo m1 m2 m3)) = .legal (.rbo m1 m2 m3) ∧
    decode (encode (.jit m1 m2 m3)) = .legal (.jit m1 m2 m3) ∧
    decode (encode (.jif m1 m2 m3)) = .legal (.jif m1 m2 m3) ∧
    decode (encode (.halt m1 m2 m3)) = .legal (.halt m1 m2 m3)) ∧
  decode 99 = .legal (.halt .position .position .position) ∧
  decode 199 = .legal (.halt .immediate .position .position) ∧
  decode 2099 = .legal (.halt .position .relative .position) ∧
  decode 22299 = .legal (.halt .relative .relative .relative) ∧
  decode 1004 = .legal (.out .position .immediate .position) ∧
  decode 399 = .illegal .badModeDigit ∧ decode 3004 = .illegal .badModeDigit ∧
  (∀ (c : Cell) (mn : Mnemonic) (k : Nat), 0 ≤ c.toInt → c.toInt ≤ 99999 → c.toNat % 100 = mn.opcode →
    mn.nparams < k → k ≤ 3 → 2 < c.toNat / 10 ^ (k + 1) % 10 → decode c = .illegal .badModeDigit) ∧
  ∀ (mn : Mnemonic) (ops : List Operand) (cells : List Cell), assemble mn ops = some cells →
    ∃ i : Instr, cells.head? = some (encode i) ∧ i.mnemonic = mn ∧
      ∀ k, mn.nparams < k → k ≤ 3 → i.modeOfSlot k = .position

/-- R74, R75: disassembly reads back every instruction the assembler emits, whatever cells follow it. -/
def Obligations.DisassembleOfAssemble : Prop :=
  ∀ (mn : Mnemonic) (ops : List Operand) (cells rest : List Cell), assemble mn ops = some cells →
    disassemble (cells ++ rest) = some (mn, ops, rest)

/-! ## The step (40_fetch_decode_resolve.md) -/

/-- R80, R81: from Running, a step runs the instruction that the cell at `pc` decodes to. -/
def Obligations.StepRunsDecoded : Prop :=
  ∀ (s : State) (i : Instr), s.st = .running → decode (s.mem.read s.pc) = .legal i →
    step s = exec i s

/-- R171, R172, and the model's choice of log entry 4: a step from a suspended state is the first step of the
next `run`, which is the step from Running; what the output latch held is gone. -/
def Obligations.SuspendedStepsLikeRunning : Prop :=
  ∀ s : State, s.st.terminal = false → step s = step (s.setSt .running)

/-- R83: past the top of the address space every instruction but Halt takes AddressFault, whatever its
operands; Halt executes at any `pc`. -/
def Obligations.TopOfSpaceFaults : Prop :=
  ∀ (s : State) (i : Instr), s.st = .running → decode (s.mem.read s.pc) = .legal i →
    (i.mnemonic ≠ .halt → addrMax < s.pc.toNat + i.nparams + 1 → step s = .next (s.withFault .addressFault)) ∧
    (i.mnemonic = .halt → step s = .next { s with st := .halted })

/-- R93: the resolver answers the address of R85 to R87, ArithmeticOverflow exactly for a Relative sum that is
no cell, AddressFault exactly for a negative address, and nothing else. -/
def Obligations.ResolveAsSpecified : Prop :=
  ∀ (s : State) (k : Nat) (m : Mode), 1 ≤ k → k ≤ 3 → s.pc.toNat + k ≤ addrMax →
    (∀ a : Addr, resolve s k m = .ok a ↔ s.slotAt k m a) ∧
    (resolve s k m = .raise .arithmeticOverflow ↔ s.sumOverflows k m) ∧
    (resolve s k m = .raise .addressFault ↔ s.addressNegative k m) ∧
    resolve s k m ≠ .raise .illegalInstruction ∧ ∀ r, resolve s k m ≠ .refuse r

/-- R94: the ranges of resolved addresses, and Relative mode with `rb = 0`. -/
def Obligations.ResolvedAddressRanges : Prop :=
  ∀ (s : State) (k : Nat) (m : Mode), 1 ≤ k → k ≤ 3 → s.room k →
    (∀ a : Addr, resolve s k m = .ok a → m ≠ .immediate → (a.toNat : Int) ≤ cellMax) ∧
    (∀ a : Addr, resolve s k .immediate = .ok a → 1 ≤ a.toNat ∧ a.toNat ≤ addrMax - 1) ∧
    (s.rb = 0 → resolve s k .relative = resolve s k .position)

/-- R90: resolution is eager and ordered; the first slot that faults ends the step, for every instruction with
parameters, whether or not it would use the operand. -/
def Obligations.FirstFaultingSlotWins : Prop :=
  ∀ (s : State) (i : Instr) (k : Nat) (kind : FaultKind), i.wellFormed = true → s.room i.nparams →
    1 ≤ k → k ≤ i.nparams → (∀ j, 1 ≤ j → j < k → ∃ a, s.slotAt j (i.modeOfSlot j) a) →
    ((kind = .arithmeticOverflow ∧ s.sumOverflows k (i.modeOfSlot k)) ∨
      (kind = .addressFault ∧ s.addressNegative k (i.modeOfSlot k))) →
    exec i s = .next (s.withFault kind)

/-- R67 (e), R82: the term that no legal cell decodes to, Immediate on a written slot, takes IllegalInstruction
as its cell does, before anything else (log entry 9). -/
def Obligations.ImmediateWrittenSlotFaults : Prop :=
  ∀ (s : State) (i : Instr), i.wellFormed = false →
    decode (encode i) = .illegal .immediateWritten ∧ exec i s = .next (s.withFault .illegalInstruction)

/-! ## The instructions (41_arithmetic.md to 46_halt.md) -/

/-- R100: Add. -/
def Obligations.AddStoresExactSum : Prop :=
  ∀ m1 m2 m3 : Mode,
    EncodedAs (.add m1 m2 m3) 1 4 ∧
    (m3 = .immediate → decode (encode (.add m1 m2 m3)) = .illegal .immediateWritten) ∧
    ∀ (s : State) (a1 a2 a3 : Addr), m3 ≠ .immediate → s.room 3 →
      s.slotAt 1 m1 a1 → s.slotAt 2 m2 a2 → s.slotAt 3 m3 a3 →
      (IsCell (s.valueAt a1 + s.valueAt a2) →
        exec (.add m1 m2 m3) s =
          .next { s with mem := s.mem.write a3 (cellOf (s.valueAt a1 + s.valueAt a2)), pc := s.pc + 4 }) ∧
      (¬ IsCell (s.valueAt a1 + s.valueAt a2) →
        exec (.add m1 m2 m3) s = .next (s.withFault .arithmeticOverflow))

/-- R101: Mul. -/
def Obligations.MulStoresExactProduct : Prop :=
  ∀ m1 m2 m3 : Mode,
    EncodedAs (.mul m1 m2 m3) 2 4 ∧
    (m3 = .immediate → decode (encode (.mul m1 m2 m3)) = .illegal .immediateWritten) ∧
    ∀ (s : State) (a1 a2 a3 : Addr), m3 ≠ .immediate → s.room 3 →
      s.slotAt 1 m1 a1 → s.slotAt 2 m2 a2 → s.slotAt 3 m3 a3 →
      (IsCell (s.valueAt a1 * s.valueAt a2) →
        exec (.mul m1 m2 m3) s =
          .next { s with mem := s.mem.write a3 (cellOf (s.valueAt a1 * s.valueAt a2)), pc := s.pc + 4 }) ∧
      (¬ IsCell (s.valueAt a1 * s.valueAt a2) →
        exec (.mul m1 m2 m3) s = .next (s.withFault .arithmeticOverflow))

/-- R110: In, fed and starved; a destination that does not resolve faults whatever the queue holds. -/
def Obligations.InConsumesFrontOrSuspends : Prop :=
  ∀ m1 m2 m3 : Mode,
    EncodedAs (.inp m1 m2 m3) 3 2 ∧
    (m1 = .immediate → decode (encode (.inp m1 m2 m3)) = .illegal .immediateWritten) ∧
    ∀ s : State, m1 ≠ .immediate → s.room 1 →
      (∀ a1 : Addr, s.slotAt 1 m1 a1 →
        (s.inq = [] → exec (.inp m1 m2 m3) s = .next { s with st := .suspendedOnInput }) ∧
        (∀ (v : Cell) (rest : List Cell), s.inq = v :: rest →
          exec (.inp m1 m2 m3) s =
            .next { s with mem := s.mem.write a1 v, inq := rest, pc := s.pc + 2 })) ∧
      (s.sumOverflows 1 m1 → exec (.inp m1 m2 m3) s = .next (s.withFault .arithmeticOverflow)) ∧
      (s.addressNegative 1 m1 → exec (.inp m1 m2 m3) s = .next (s.withFault .addressFault))

/-- R111: Out. -/
def Obligations.OutSuspendsWithValue : Prop :=
  ∀ m1 m2 m3 : Mode,
    EncodedAs (.out m1 m2 m3) 4 2 ∧
    ∀ (s : State) (a1 : Addr), s.room 1 → s.slotAt 1 m1 a1 →
      exec (.out m1 m2 m3) s = .next { s with pc := s.pc + 2, st := .suspendedOnOutput (s.mem.read a1) }

/-- R120: Jit. -/
def Obligations.JitJumpsIfNotZero : Prop :=
  ∀ m1 m2 m3 : Mode,
    EncodedAs (.jit m1 m2 m3) 5 3 ∧
    ∀ (s : State) (a1 a2 : Addr), s.room 2 → s.slotAt 1 m1 a1 → s.slotAt 2 m2 a2 →
      (s.valueAt a1 ≠ 0 → 0 ≤ s.valueAt a2 →
        exec (.jit m1 m2 m3) s = .next { s with pc := s.mem.read a2 }) ∧
      (s.valueAt a1 ≠ 0 → s.valueAt a2 < 0 →
        exec (.jit m1 m2 m3) s = .next (s.withFault .addressFault)) ∧
      (s.valueAt a1 = 0 → exec (.jit m1 m2 m3) s = .next { s with pc := s.pc + 3 })

/-- R121: Jif. -/
def Obligations.JifJumpsIfZero : Prop :=
  ∀ m1 m2 m3 : Mode,
    EncodedAs (.jif m1 m2 m3) 6 3 ∧
    ∀ (s : State) (a1 a2 : Addr), s.room 2 → s.slotAt 1 m1 a1 → s.slotAt 2 m2 a2 →
      (s.valueAt a1 = 0 → 0 ≤ s.valueAt a2 →
        exec (.jif m1 m2 m3) s = .next { s with pc := s.mem.read a2 }) ∧
      (s.valueAt a1 = 0 → s.valueAt a2 < 0 →
        exec (.jif m1 m2 m3) s = .next (s.withFault .addressFault)) ∧
      (s.valueAt a1 ≠ 0 → exec (.jif m1 m2 m3) s = .next { s with pc := s.pc + 3 })

/-- R130: Lt, a strict signed comparison of slot 1 with slot 2. -/
def Obligations.LtStoresOneOrZero : Prop :=
  ∀ m1 m2 m3 : Mode,
    EncodedAs (.lt m1 m2 m3) 7 4 ∧
    (m3 = .immediate → decode (encode (.lt m1 m2 m3)) = .illegal .immediateWritten) ∧
    ∀ (s : State) (a1 a2 a3 : Addr), m3 ≠ .immediate → s.room 3 →
      s.slotAt 1 m1 a1 → s.slotAt 2 m2 a2 → s.slotAt 3 m3 a3 →
      exec (.lt m1 m2 m3) s =
        .next { s with
          mem := s.mem.write a3 (if s.valueAt a1 < s.valueAt a2 then 1 else 0), pc := s.pc + 4 }

/-- R131: Equ, equality of whole cells. -/
def Obligations.EquStoresOneOrZero : Prop :=
  ∀ m1 m2 m3 : Mode,
    EncodedAs (.equ m1 m2 m3) 8 4 ∧
    (m3 = .immediate → decode (encode (.equ m1 m2 m3)) = .illegal .immediateWritten) ∧
    ∀ (s : State) (a1 a2 a3 : Addr), m3 ≠ .immediate → s.room 3 →
      s.slotAt 1 m1 a1 → s.slotAt 2 m2 a2 → s.slotAt 3 m3 a3 →
      exec (.equ m1 m2 m3) s =
        .next { s with
          mem := s.mem.write a3 (if s.valueAt a1 = s.valueAt a2 then 1 else 0), pc := s.pc + 4 }

/-- R140: Rbo; its operand is resolved with the old base. -/
def Obligations.RboAddsToBase : Prop :=
  ∀ m1 m2 m3 : Mode,
    EncodedAs (.rbo m1 m2 m3) 9 2 ∧
    ∀ (s : State) (a1 : Addr), s.room 1 → s.slotAt 1 m1 a1 →
      (IsCell (s.rb.toInt + s.valueAt a1) →
        exec (.rbo m1 m2 m3) s =
          .next { s with rb := cellOf (s.rb.toInt + s.valueAt a1), pc := s.pc + 2 }) ∧
      (¬ IsCell (s.rb.toInt + s.valueAt a1) →
        exec (.rbo m1 m2 m3) s = .next (s.withFault .arithmeticOverflow))

/-- R150: Halt; only `st` changes, and `pc` stays on the Halt cell. -/
def Obligations.HaltStops : Prop :=
  ∀ (m1 m2 m3 : Mode), EncodedAs (.halt m1 m2 m3) 99 1 ∧
    ∀ s : State, exec (.halt m1 m2 m3) s = .next { s with st := .halted }

/-- R103: a result of Add, Mul, Rbo or a Relative sum that is no cell is ArithmeticOverflow, with nothing
written and `pc` and `rb` kept. -/
def Obligations.OverflowIsAFault : Prop :=
  ∀ (s : State) (i : Instr), s.st = .running → decode (s.mem.read s.pc) = .legal i → s.room i.nparams →
    ((∀ k, 1 ≤ k → k ≤ i.nparams → ∃ a, s.slotAt k (i.modeOfSlot k) a) → resultOverflows i s →
      step s = .next (s.withFault .arithmeticOverflow)) ∧
    (∀ k, 1 ≤ k → k ≤ i.nparams → (∀ j, 1 ≤ j → j < k → ∃ a, s.slotAt j (i.modeOfSlot j) a) →
      s.sumOverflows k (i.modeOfSlot k) → step s = .next (s.withFault .arithmeticOverflow))

/-- R104: operands on which Add and Mul cannot overflow; the instruction stores the exact result. -/
def Obligations.NeverOverflowBounds : Prop :=
  ∀ (s : State) (m1 m2 m3 : Mode) (a1 a2 a3 : Addr), m3 ≠ .immediate → s.room 3 →
    s.slotAt 1 m1 a1 → s.slotAt 2 m2 a2 → s.slotAt 3 m3 a3 →
    ((s.valueAt a1 ≤ 0 ∧ 0 ≤ s.valueAt a2) ∨ (0 ≤ s.valueAt a1 ∧ s.valueAt a2 ≤ 0) →
      ∃ t, exec (.add m1 m2 m3) s = .next t ∧ t.st = s.st ∧
        t.valueAt a3 = s.valueAt a1 + s.valueAt a2) ∧
    ((|s.valueAt a1| < 2 ^ 31 ∧ |s.valueAt a2| ≤ 2 ^ 32) ∨
        s.valueAt a1 = 0 ∨ s.valueAt a1 = 1 ∨ s.valueAt a2 = 0 ∨ s.valueAt a2 = 1 ∨
        (s.valueAt a1 = -1 ∧ s.valueAt a2 ≠ cellMin) ∨ (s.valueAt a2 = -1 ∧ s.valueAt a1 ≠ cellMin) →
      ∃ t, exec (.mul m1 m2 m3) s = .next t ∧ t.st = s.st ∧
        t.valueAt a3 = s.valueAt a1 * s.valueAt a2)

/-! ## Frames, and rules of the whole machine -/

/-- 20_memory.md R42, R48, for all ten instructions: where the instruction's own resolver gives the address
stored to, every other cell reads as before; where there is none (Out, Jit, Jif, Rbo, Halt, and operands that
do not resolve) every cell does. -/
def Obligations.MemoryFrame : Prop :=
  ∀ (i : Instr) (s t : State), exec i s = .next t →
    ∀ b : Addr, storeAddr i s ≠ some b → t.mem.read b = s.mem.read b

/-- R100, R101, R130, R131: Add, Mul, Lt and Equ change `M` and `pc` only, or take one fault. -/
def Obligations.ComputeFrame : Prop :=
  ∀ (i : Instr) (s t : State), i.mnemonic ∈ [Mnemonic.add, .mul, .lt, .equ] → exec i s = .next t →
    t.rb = s.rb ∧ t.inq = s.inq ∧
      ((t.st = s.st ∧ t.pc = s.pc + 4) ∨ ∃ k, t = s.withFault k)

/-- R110, R111, R120, R121, R140, R150: the registers that In, Out, Jit, Jif, Rbo and Halt leave alone, and the
memory that all of them but In leave alone. -/
def Obligations.ControlAndIoFrame : Prop :=
  ∀ (i : Instr) (s t : State), exec i s = .next t →
    (i.mnemonic = .inp → t.rb = s.rb ∧
      ((t.st = s.st ∧ ∃ v, s.inq = v :: t.inq) ∨ (t.mem = s.mem ∧ t.inq = s.inq ∧ t.pc = s.pc))) ∧
    (i.mnemonic = .out → t.mem = s.mem ∧ t.rb = s.rb ∧ t.inq = s.inq) ∧
    (i.mnemonic ∈ [Mnemonic.jit, .jif] → t.mem = s.mem ∧ t.rb = s.rb ∧ t.inq = s.inq ∧
      (t.st = s.st ∨ ∃ k, t = s.withFault k)) ∧
    (i.mnemonic = .rbo → t.mem = s.mem ∧ t.inq = s.inq ∧ (t.st = s.st ∨ ∃ k, t = s.withFault k)) ∧
    (i.mnemonic = .halt → t.mem = s.mem ∧ t.rb = s.rb ∧ t.inq = s.inq ∧ t.pc = s.pc)

/-- R141: Rbo is the only instruction that writes `rb`, no host operation on an instance writes it, `construct`
makes it 0 and `clone` copies it; and an instruction with no Relative slot, other than Rbo, does the same whatever
`rb` is. -/
def Obligations.OnlyRboWritesBase : Prop :=
  (∀ s t : State, step s = .next t → t.rb ≠ s.rb →
    ∃ m1 m2 m3, decode (s.mem.read s.pc) = .legal (.rbo m1 m2 m3)) ∧
  (∀ (s t : State) (v : Int), feed v s = .next t → t.rb = s.rb) ∧
  (∀ (s t : State) (text : List Char), feedText text s = .next t → t.rb = s.rb) ∧
  (∀ (s t : State) (a : Addr) (v : Int), poke a v s = .next t → t.rb = s.rb) ∧
  (∀ (p q : List Int) (t : State), construct p q = .next t → t.rb = 0) ∧
  (∀ s : State, (clone s).1.rb = s.rb ∧ (clone s).2.rb = s.rb) ∧
  ∀ (i : Instr) (s : State) (v : Cell), i.mnemonic ≠ .rbo →
    (∀ k, 1 ≤ k → k ≤ i.nparams → i.modeOfSlot k ≠ .relative) →
    exec i (s.setRb v) = Answer.mapNext (fun t => t.setRb v) (exec i s)

/-- R31 (e): over any number of steps `rb` moves by the sum of what executed Rbo instructions added. That the
steps go on from suspended states as the next `run` does, and change nothing in terminal ones, is the model's choice
(log entry 4). -/
def Obligations.BaseIsSumOfRbo : Prop :=
  ∀ (n : Nat) (s t : State), Sys2Proof.core.run n s = .next t → t.rb.toInt = s.rb.toInt + rboTotal n s

/-- R24: the input queue is only appended to by the host and only popped at the front, by a successful In; no
other instruction looks at it. -/
def Obligations.InputQueueIsFifo : Prop :=
  (∀ s t : State, step s = .next t →
    t.inq = s.inq ∨ (∃ v, s.inq = v :: t.inq) ∧
      ∃ m1 m2 m3, decode (s.mem.read s.pc) = .legal (.inp m1 m2 m3)) ∧
  (∀ (s t : State) (v : Int), feed v s = .next t → t.inq = s.inq ++ [cellOf v]) ∧
  (∀ (s t : State) (text : List Char), feedText text s = .next t → ∃ q, t.inq = s.inq ++ q) ∧
  (∀ (s t : State) (a : Addr) (v : Int), poke a v s = .next t → t.inq = s.inq) ∧
  (∀ (p q : List Int) (t : State), construct p q = .next t → t.inq = q.map cellOf) ∧
  ∀ (i : Instr) (s : State) (q : List Cell), i.mnemonic ≠ .inp →
    exec i (s.setInq q) = Answer.mapNext (fun t => t.setInq q) (exec i s)

/-- R124: `pc` after an instruction that is no taken jump, and after Halt, a starved In and a fault. -/
def Obligations.SequentialFlow : Prop :=
  ∀ (s t : State) (i : Instr), s.st = .running → decode (s.mem.read s.pc) = .legal i → step s = .next t →
    (t.st = .running ∨ (∃ v, t.st = .suspendedOnOutput v) → ¬ jumpTaken i s →
      t.pc.toNat = s.pc.toNat + i.width) ∧
    (t.st = .halted ∨ t.st = .suspendedOnInput ∨ (∃ r, t.st = .faulted r) → t.pc = s.pc)

/-- R122: the target of a taken jump is the value of operand `b`, absolute, and the next fetch is there, be it a
cell never written; a negative target is AddressFault at the jump; a jump not taken does not look at it. -/
def Obligations.JumpTargets : Prop :=
  ∀ (s : State) (i : Instr) (a2 : Addr), s.st = .running → decode (s.mem.read s.pc) = .legal i →
    i.mnemonic ∈ [Mnemonic.jit, .jif] → s.room 2 → (∃ a1, s.slotAt 1 (i.modeOfSlot 1) a1) →
    s.slotAt 2 (i.modeOfSlot 2) a2 →
    (jumpTaken i s → 0 ≤ s.valueAt a2 →
      ∃ t, step s = .next t ∧ t = { s with pc := t.pc } ∧ (t.pc.toNat : Int) = s.valueAt a2 ∧
        (t.mem.read t.pc = 0 → step t = .next (t.withFault .illegalInstruction))) ∧
    (jumpTaken i s → s.valueAt a2 < 0 → step s = .next (s.withFault .addressFault)) ∧
    (¬ jumpTaken i s → step s = .next { s with pc := s.pc + 3 })

/-- R52, R56: a store by any instruction that stores (Add, Mul, Lt, Equ, a fed In) into the next instruction cell
is what the very next step decodes, and runs or faults on; so is a poke into the cell at `pc`. The step after a poke
into a suspended machine is the first step of the next `run`, the model's choice (log entry 4). -/
def Obligations.StoresAreSeenByTheNextFetch : Prop :=
  (∀ (s : State) (i : Instr) (v : Int), s.st = .running → decode (s.mem.read s.pc) = .legal i →
    storeAddr i s = some (s.pc + BitVec.ofNat 64 i.width) → storedValue i s v → IsCell v →
    ∃ t, step s = .next t ∧ t.pc = s.pc + BitVec.ofNat 64 i.width ∧ t.valueAt t.pc = v ∧
      (∀ j, decode (cellOf v) = .legal j → step t = exec j t) ∧
      ∀ cause, decode (cellOf v) = .illegal cause → step t = .next (t.withFault .illegalInstruction)) ∧
  ∀ (s : State) (v : Int), s.st.terminal = false → IsCell v →
    ∃ t, poke s.pc v s = .next t ∧ t.pc = s.pc ∧ t.valueAt t.pc = v ∧
      (∀ j, decode (cellOf v) = .legal j → step t = exec j (t.setSt .running)) ∧
      ∀ cause, decode (cellOf v) = .illegal cause → step t = .next (t.withFault .illegalInstruction)

/-- Every state answers a next state: no step of the machine stops with a fault or a refusal of the model's own
(R7 at the spec's default, log entry 3; the terminal states, log entry 4). -/
def Obligations.StepAlwaysAnswers : Prop :=
  ∀ s : State, ∃ t, step s = .next t

/-! ## Faults (60_exceptions.md) -/

/-- R197: a faulting step has no effect but on `st`, and its record names the instruction that failed. -/
def Obligations.FaultsArePrecise : Prop :=
  ∀ (s t : State) (r : FaultRecord), step s = .next t → t.st = .faulted r → s.st.isFault = false →
    t = { s with st := .faulted r } ∧ r.pc = s.pc ∧ r.cell = s.mem.read s.pc

/-- R202: every way a step can leave Running. -/
def Obligations.WaysToLeaveRunning : Prop :=
  ∀ s t : State, s.st = .running → step s = .next t → t.st ≠ .running →
    (∃ m1 m2 m3 v, decode (s.mem.read s.pc) = .legal (.out m1 m2 m3) ∧ t.st = .suspendedOnOutput v ∧
      t.pc = s.pc + 2 ∧ t.st.terminal = false ∧ t.st.stopReason = some (.output v)) ∨
    (∃ m1 m2 m3, decode (s.mem.read s.pc) = .legal (.inp m1 m2 m3) ∧ s.inq = [] ∧
      t.st = .suspendedOnInput ∧ t.pc = s.pc ∧ t.st.terminal = false ∧ t.st.stopReason = some .needsInput) ∨
    (∃ m1 m2 m3, decode (s.mem.read s.pc) = .legal (.halt m1 m2 m3) ∧ t.st = .halted ∧ t.pc = s.pc ∧
      t.st.terminal = true ∧ t.st.stopReason = some .halted) ∨
    ∃ r, t.st = .faulted r ∧ t.pc = s.pc ∧ t.st.terminal = true ∧ t.st.stopReason = some (.faulted r)

/-- R195: ArithmeticOverflow comes from the result of Add, Mul or Rbo, or from a Relative sum, and from nothing
else. -/
def Obligations.OverflowHasACause : Prop :=
  ∀ (s t : State) (i : Instr) (r : FaultRecord), s.st = .running → decode (s.mem.read s.pc) = .legal i →
    step s = .next t → t.st = .faulted r → r.kind = .arithmeticOverflow →
    resultOverflows i s ∨ ∃ k, 1 ≤ k ∧ k ≤ i.nparams ∧ s.sumOverflows k (i.modeOfSlot k)

/-- R192: AddressFault comes from the top of the address space, a negative operand address, or a taken jump to
a negative target, and from nothing else. -/
def Obligations.AddressFaultHasACause : Prop :=
  ∀ (s t : State) (i : Instr) (r : FaultRecord), s.st = .running → decode (s.mem.read s.pc) = .legal i →
    step s = .next t → t.st = .faulted r → r.kind = .addressFault →
    (i.mnemonic ≠ .halt ∧ ¬ s.room i.nparams) ∨
      (∃ k, 1 ≤ k ∧ k ≤ i.nparams ∧ s.addressNegative k (i.modeOfSlot k)) ∨
      (jumpTaken i s ∧ ∃ a2, s.slotAt 2 (i.modeOfSlot 2) a2 ∧ s.valueAt a2 < 0)

/-! ## Memory (20_memory.md) -/

/-- R42, and R41 for never-written cells. -/
def Obligations.WriteChangesOneCell : Prop :=
  (∀ (m : Memory) (a : Addr) (v : Cell),
    (m.write a v).read a = v ∧ ∀ b : Addr, b ≠ a → (m.write a v).read b = m.read b) ∧
  ∀ a : Addr, Memory.empty.read a = 0

/-- R23 in the form the model holds memory in: two canonical memories that read the same everywhere are the
same data (log entry 2). -/
def Obligations.CanonicalMemoriesAreEqual : Prop :=
  ∀ m n : Memory, m.wf = true → n.wf = true → (∀ a : Addr, m.read a = n.read a) → m = n

/-- R7, R44: with no limit every access is done; with a limit `L` exactly those below it are, and the others
are refused, which is no fault. The machine's own reads and writes are such accesses, with the spec's default. -/
def Obligations.MemLimitRefuses : Prop :=
  (∀ (α : Type) (a : Addr) (x : α), access none a x = .ok x) ∧
  (∀ (α : Type) (l : Nat) (a : Addr) (x : α),
    (a.toNat < l → access (some l) a x = .ok x) ∧
    (l ≤ a.toNat → access (some l) a x = .refuse .beyondMemLimit)) ∧
  ∀ (s : State) (a : Addr) (v : Cell),
    load s a = access Config.memLimit a (s.mem.read a) ∧ load s a = .ok (s.mem.read a) ∧
    store s a v = access Config.memLimit a { s with mem := s.mem.write a v } ∧
    store s a v = .ok { s with mem := s.mem.write a v }

/-! ## Invariants -/

/-- Every step keeps the canonical form of memory (R23, R31 (c)). -/
def Obligations.StepKeepsMemoryCanonical : Prop :=
  ∀ s t : State, s.memCanonical → step s = .next t → t.memCanonical

/-- Every host call keeps the canonical form of every instance's memory (R23, R31 (c)). -/
def Obligations.HostCallKeepsMemoryCanonical : Prop :=
  ∀ (fuel : Nat) (call : HostCall) (ms ms' : List State) (reply : HostReply),
    hostCall fuel call ms = some (reply, ms') → (∀ s ∈ ms, s.memCanonical) → ∀ s ∈ ms', s.memCanonical

/-- Every step keeps what the run-state says about the rest of the state (R26, R28, R197, R198, R202): the
latch holds the operand of the Out before `pc`, a starved In stands at `pc` with the queue empty, Halted stands
on a Halt, and the fault record is that of the cell at `pc`. -/
def Obligations.StepKeepsRunStateMeaning : Prop :=
  ∀ s t : State, s.stMeaning → step s = .next t → t.stMeaning

/-- Both invariants hold right after reset. -/
def Obligations.ResetMeetsInvariants : Prop :=
  State.reset.memCanonical ∧ State.reset.stMeaning

/-- R37, R220 for the empty image; the empty program faults at once (R162). -/
def Obligations.ResetState : Prop :=
  construct [] [] = .next State.reset ∧
  State.reset.pc = 0 ∧ State.reset.rb = 0 ∧ State.reset.inq = [] ∧ State.reset.st = .running ∧
  (∀ a : Addr, State.reset.mem.read a = 0) ∧
  step State.reset = .next { State.reset with st := .faulted ⟨.illegalInstruction, 0, 0⟩ }

/-! ## The host surface (47_engine_and_host.md) -/

/-- R37, R162: what `construct` leaves, and when it is refused. An image has at most 2^64 cells, one for each
address (log entry 10). That the empty image faults at its first step is the spec's own inference ("[derived: from
10_state.md rule R37]"). -/
def Obligations.ConstructLoadsImage : Prop :=
  ∀ p q : List Int, p.length ≤ addrMax + 1 →
    ((∀ v ∈ p, IsCell v) → (∀ v ∈ q, IsCell v) →
      ∃ s, construct p q = .next s ∧
        (∀ (a : Addr) (v : Int), p[a.toNat]? = some v → s.valueAt a = v) ∧
        (∀ a : Addr, p.length ≤ a.toNat → s.valueAt a = 0) ∧
        s.pc = 0 ∧ s.rb = 0 ∧ s.inq.map BitVec.toInt = q ∧ s.st = .running ∧
        (p = [] → step s = .next (s.withFault .illegalInstruction))) ∧
    ((∃ v ∈ p, ¬ IsCell v) ∨ (∃ v ∈ q, ¬ IsCell v) → construct p q = .refused .valueNotCell)

/-- R164, R165: `feed` appends one value and changes nothing else, in every run-state; a value that is no cell
is refused. -/
def Obligations.FeedAppends : Prop :=
  ∀ (s : State) (v : Int),
    (IsCell v → feed v s = .next { s with inq := s.inq ++ [cellOf v] }) ∧
    (¬ IsCell v → feed v s = .refused .valueNotCell)

/-- R166: `feed_text` appends the ASCII codes in order and nothing else; a character above 127 refuses the
whole call. That the string is the list of its characters and the
ASCII code of a character its code point is the model's choice (log entry 11). -/
def Obligations.FeedTextAppendsAscii : Prop :=
  ∀ (s : State) (text : List Char),
    ((∀ c ∈ text, c.toNat ≤ 127) →
      feedText text s = .next { s with inq := s.inq ++ text.map fun c => cellOf (c.toNat : Int) }) ∧
    ((∃ c ∈ text, 127 < c.toNat) → feedText text s = .refused .characterNotAscii)

/-- R173, R174: `peek` reads the cell; `poke` changes only that cell, in every run-state; a value that is no
cell is refused. -/
def Obligations.PeekAndPoke : Prop :=
  ∀ (s : State) (a : Addr) (v : Int),
    peek a s = some (s.mem.read a) ∧
    (IsCell v → ∃ t, poke a v s = .next t ∧ t.valueAt a = v ∧ (∀ b : Addr, b ≠ a → t.valueAt b = s.valueAt b) ∧
      t.pc = s.pc ∧ t.rb = s.rb ∧ t.inq = s.inq ∧ t.st = s.st) ∧
    (¬ IsCell v → poke a v s = .refused .valueNotCell)

/-- R36, R175: a host call changes no instance but the one it may act on, and a clone is equal to its original,
which it leaves unchanged; `construct` adds the instance it creates. That instances are a list, a new one at its
end, is the model's choice (log entry 13). -/
def Obligations.InstancesAreIndependent : Prop :=
  (∀ (fuel : Nat) (call : HostCall) (ms ms' : List State) (reply : HostReply) (j : Nat) (s : State),
    hostCall fuel call ms = some (reply, ms') → ms[j]? = some s → call.changes ≠ some j →
    ms'[j]? = some s) ∧
  (∀ (fuel : Nat) (ms : List State) (k : Nat) (s : State), ms[k]? = some s →
    ∃ ms', hostCall fuel (.clone k) ms = some (.created ms.length, ms') ∧
      ms'[ms.length]? = some s ∧ ms'.length = ms.length + 1) ∧
  ∀ (fuel : Nat) (p q : List Int) (ms : List State) (s : State), construct p q = .next s →
    hostCall fuel (.construct p q) ms = some (.created ms.length, ms ++ [s])

/-- R168: the StopReason is a function of the `st` in which stepping stopped, and Running is never returned. -/
def Obligations.RunReturnsStopReason : Prop :=
  ∀ (fuel : Nat) (s t : State) (r : StopReason), runFor fuel s = .stopped r t →
    t.st ≠ .running ∧
    (∀ v, r = .output v ↔ t.st = .suspendedOnOutput v) ∧
    (r = .needsInput ↔ t.st = .suspendedOnInput) ∧
    (r = .halted ↔ t.st = .halted) ∧
    ∀ f, r = .faulted f ↔ t.st = .faulted f

/-- R167: a run that returns is at least one step (log entry 4: in a terminal state, one that changes nothing),
every state before the last Running, the last one not. -/
def Obligations.RunIsStepsUntilStopped : Prop :=
  ∀ (n : Nat) (s t : State) (r : StopReason),
    runFor n s = .stopped r t ↔
      ∃ k, k < n ∧ Sys2Proof.core.run (k + 1) s = .next t ∧ t.st.stopReason = some r ∧
        ∀ j, 1 ≤ j → j ≤ k → ∃ u : State, Sys2Proof.core.run j s = .next u ∧ u.st = .running

/-- R169: `run` in a terminal state returns its StopReason again and changes nothing. -/
def Obligations.RunOnTerminalChangesNothing : Prop :=
  ∀ (fuel : Nat) (s : State),
    (s.st = .halted → runFor (fuel + 1) s = .stopped .halted s) ∧
    ∀ f : FaultRecord, s.st = .faulted f → runFor (fuel + 1) s = .stopped (.faulted f) s

/-- R112: a starved In changes only `st`; resumed unfed it suspends again with no change; fed, it consumes the
value and advances by 2. The retry is the spec's own inference ("[derived: from rule R110 and 47_engine_and_host.md
rule R167]"), and a step from SuspendedOnInput as the first step of the next `run` the model's choice (log
entry 4). -/
def Obligations.StarvedInRetries : Prop :=
  ∀ (s : State) (m1 m2 m3 : Mode) (a1 : Addr), s.st = .running →
    decode (s.mem.read s.pc) = .legal (.inp m1 m2 m3) → s.room 1 → s.slotAt 1 m1 a1 → s.inq = [] →
    step s = .next { s with st := .suspendedOnInput } ∧
    step { s with st := .suspendedOnInput } = .next { s with st := .suspendedOnInput } ∧
    ∀ v : Int, IsCell v → ∃ u, feed v { s with st := .suspendedOnInput } = .next u ∧
      step u = .next { s with mem := s.mem.write a1 (cellOf v), pc := s.pc + 2 }
end

