-- ==== Sys2Proof/Laws/State.lean ====
section
/-! SUPPORT. What each update of the state does to each field. -/

namespace Sys2Proof.Machine

@[simp] theorem State.advance_mem (s : State) (n : Nat) : (s.advance n).mem = s.mem := rfl

@[simp] theorem State.advance_pc (s : State) (n : Nat) : (s.advance n).pc = s.pc + BitVec.ofNat 64 n := rfl

@[simp] theorem State.advance_rb (s : State) (n : Nat) : (s.advance n).rb = s.rb := rfl

@[simp] theorem State.advance_inq (s : State) (n : Nat) : (s.advance n).inq = s.inq := rfl

@[simp] theorem State.advance_st (s : State) (n : Nat) : (s.advance n).st = s.st := rfl

@[simp] theorem State.setPc_mem (s : State) (a : Addr) : (s.setPc a).mem = s.mem := rfl

@[simp] theorem State.setPc_pc (s : State) (a : Addr) : (s.setPc a).pc = a := rfl

@[simp] theorem State.setPc_rb (s : State) (a : Addr) : (s.setPc a).rb = s.rb := rfl

@[simp] theorem State.setPc_inq (s : State) (a : Addr) : (s.setPc a).inq = s.inq := rfl

@[simp] theorem State.setPc_st (s : State) (a : Addr) : (s.setPc a).st = s.st := rfl

@[simp] theorem State.setRb_mem (s : State) (v : Cell) : (s.setRb v).mem = s.mem := rfl

@[simp] theorem State.setRb_pc (s : State) (v : Cell) : (s.setRb v).pc = s.pc := rfl

@[simp] theorem State.setRb_rb (s : State) (v : Cell) : (s.setRb v).rb = v := rfl

@[simp] theorem State.setRb_inq (s : State) (v : Cell) : (s.setRb v).inq = s.inq := rfl

@[simp] theorem State.setRb_st (s : State) (v : Cell) : (s.setRb v).st = s.st := rfl

@[simp] theorem State.setInq_mem (s : State) (q : List Cell) : (s.setInq q).mem = s.mem := rfl

@[simp] theorem State.setInq_pc (s : State) (q : List Cell) : (s.setInq q).pc = s.pc := rfl

@[simp] theorem State.setInq_rb (s : State) (q : List Cell) : (s.setInq q).rb = s.rb := rfl

@[simp] theorem State.setInq_inq (s : State) (q : List Cell) : (s.setInq q).inq = q := rfl

@[simp] theorem State.setInq_st (s : State) (q : List Cell) : (s.setInq q).st = s.st := rfl

@[simp] theorem State.setMem_mem (s : State) (m : Memory) : (s.setMem m).mem = m := rfl

@[simp] theorem State.setMem_pc (s : State) (m : Memory) : (s.setMem m).pc = s.pc := rfl

@[simp] theorem State.setMem_rb (s : State) (m : Memory) : (s.setMem m).rb = s.rb := rfl

@[simp] theorem State.setMem_inq (s : State) (m : Memory) : (s.setMem m).inq = s.inq := rfl

@[simp] theorem State.setMem_st (s : State) (m : Memory) : (s.setMem m).st = s.st := rfl

@[simp] theorem State.setSt_mem (s : State) (r : RunState) : (s.setSt r).mem = s.mem := rfl

@[simp] theorem State.setSt_pc (s : State) (r : RunState) : (s.setSt r).pc = s.pc := rfl

@[simp] theorem State.setSt_rb (s : State) (r : RunState) : (s.setSt r).rb = s.rb := rfl

@[simp] theorem State.setSt_inq (s : State) (r : RunState) : (s.setSt r).inq = s.inq := rfl

@[simp] theorem State.setSt_st (s : State) (r : RunState) : (s.setSt r).st = r := rfl

@[simp] theorem State.takeFault_mem (s : State) (k : FaultKind) : (s.takeFault k).mem = s.mem := rfl

@[simp] theorem State.takeFault_pc (s : State) (k : FaultKind) : (s.takeFault k).pc = s.pc := rfl

@[simp] theorem State.takeFault_rb (s : State) (k : FaultKind) : (s.takeFault k).rb = s.rb := rfl

@[simp] theorem State.takeFault_inq (s : State) (k : FaultKind) : (s.takeFault k).inq = s.inq := rfl

@[simp] theorem State.takeFault_st (s : State) (k : FaultKind) : (s.takeFault k).st = .faulted ⟨k, s.mem.read s.pc, s.pc⟩ := rfl

@[simp] theorem State.withFault_mem (s : State) (k : FaultKind) : (s.withFault k).mem = s.mem := rfl

@[simp] theorem State.withFault_pc (s : State) (k : FaultKind) : (s.withFault k).pc = s.pc := rfl

@[simp] theorem State.withFault_rb (s : State) (k : FaultKind) : (s.withFault k).rb = s.rb := rfl

@[simp] theorem State.withFault_inq (s : State) (k : FaultKind) : (s.withFault k).inq = s.inq := rfl

@[simp] theorem State.withFault_st (s : State) (k : FaultKind) : (s.withFault k).st = .faulted ⟨k, s.mem.read s.pc, s.pc⟩ := rfl

/-- The fault taken by a step is the fault the claims speak of (R196). -/
theorem State.takeFault_eq_withFault (s : State) (k : FaultKind) : s.takeFault k = s.withFault k := rfl

/-- Writing the value a register already has changes nothing. -/
theorem State.setSt_self (s : State) : s.setSt s.st = s := rfl

/-- The last write of the run-state wins. -/
@[simp] theorem State.setSt_setSt (s : State) (r q : RunState) : (s.setSt r).setSt q = s.setSt q := rfl

end Sys2Proof.Machine
end

