-- ==== Sys2Proof/Laws/Memory.lean ====
section
/-! SUPPORT. Every memory operation keeps the canonical form (20_memory.md R41, R42; `Memory.wf`). -/

namespace Sys2Proof.Machine

/-- A canonical list from a higher address on is canonical from a lower one on. -/
theorem canonicalFrom_mono {low low' : Nat} (h : low' ≤ low) :
    ∀ {l : List (Nat × Cell)}, canonicalFrom low l = true → canonicalFrom low' l = true
  | [], _ => rfl
  | (k, w) :: rest, hl => by
    simp only [canonicalFrom, Bool.and_eq_true, decide_eq_true_eq] at hl ⊢
    exact ⟨⟨⟨h.trans hl.1.1.1, hl.1.1.2⟩, hl.1.2⟩, hl.2⟩

/-- Erasing keeps the canonical form. -/
theorem eraseCell_canonical (a : Nat) :
    ∀ {low : Nat} {l : List (Nat × Cell)}, canonicalFrom low l = true → canonicalFrom low (eraseCell a l) = true
  | _, [], _ => rfl
  | low, (k, w) :: rest, hl => by
    simp only [canonicalFrom, Bool.and_eq_true, decide_eq_true_eq] at hl
    have ih := eraseCell_canonical a hl.2
    obtain ⟨⟨⟨h1, h2⟩, h3⟩, -⟩ := hl
    by_cases hk : k = a
    · have he : eraseCell a ((k, w) :: rest) = eraseCell a rest := List.filter_cons_of_neg (by simp [hk])
      exact he ▸ canonicalFrom_mono (by omega) ih
    · have he : eraseCell a ((k, w) :: rest) = (k, w) :: eraseCell a rest :=
        List.filter_cons_of_pos (by simpa using hk)
      rw [he]
      simp only [canonicalFrom, Bool.and_eq_true, decide_eq_true_eq]
      exact ⟨⟨⟨h1, h2⟩, h3⟩, ih⟩

/-- Inserting a value that is not 0 keeps the canonical form. -/
theorem insertCell_canonical {a : Nat} {v : Cell} (ha : a ≤ addrMax) (hv : v ≠ 0) :
    ∀ {low : Nat} {l : List (Nat × Cell)}, low ≤ a → canonicalFrom low l = true →
      canonicalFrom low (insertCell a v l) = true
  | low, [], hlow, _ => by
    simp only [insertCell, canonicalFrom, Bool.and_eq_true, decide_eq_true_eq]
    exact ⟨⟨⟨hlow, ha⟩, hv⟩, trivial⟩
  | low, (k, w) :: rest, hlow, hl => by
    simp only [canonicalFrom, Bool.and_eq_true, decide_eq_true_eq] at hl
    obtain ⟨⟨⟨h1, h2⟩, h3⟩, h4⟩ := hl
    simp only [insertCell]
    split
    · simp only [canonicalFrom, Bool.and_eq_true, decide_eq_true_eq]
      exact ⟨⟨⟨hlow, ha⟩, hv⟩, ⟨⟨by omega, h2⟩, h3⟩, h4⟩
    · split
      · next _ hk =>
        subst hk
        simp only [canonicalFrom, Bool.and_eq_true, decide_eq_true_eq]
        exact ⟨⟨⟨hlow, ha⟩, hv⟩, h4⟩
      · simp only [canonicalFrom, Bool.and_eq_true, decide_eq_true_eq]
        exact ⟨⟨⟨h1, h2⟩, h3⟩, insertCell_canonical ha hv (by omega) h4⟩

/-- Every address is at most ADDR_MAX. -/
theorem addr_le_addrMax (a : Addr) : a.toNat ≤ addrMax := by
  have := a.isLt
  simp only [addrMax]
  omega

/-- The memory of zeros is canonical. -/
theorem Memory.empty_wf : Memory.empty.wf = true := rfl

/-- A write keeps the canonical form. -/
theorem Memory.write_wf {m : Memory} (a : Addr) (v : Cell) (h : m.wf = true) : (m.write a v).wf = true := by
  simp only [Memory.wf, Memory.write] at h ⊢
  split
  · exact eraseCell_canonical _ h
  · next hv => exact insertCell_canonical (addr_le_addrMax a) hv (Nat.zero_le _) h

/-- Placing consecutive cells keeps the canonical form. -/
theorem Memory.place_wf : ∀ (l : List Cell) (a : Nat) {m : Memory}, m.wf = true → (m.place a l).wf = true
  | [], _, _, h => h
  | c :: rest, a, m, h => by
    simp only [Memory.place]
    split
    · exact Memory.place_wf rest _ (Memory.write_wf _ _ h)
    · exact Memory.place_wf rest _ h

end Sys2Proof.Machine
end

