-- ==== Sys2Proof/Laws/Ops.lean ====
section
/-! SUPPORT. What the shared operations of Machine/Ops.lean and Machine/Flags.lean can do. -/

namespace Sys2Proof.Machine

/-- A sequence of stages answers a value exactly when both stages do. -/
theorem Res.bind_eq_ok {α β : Type} {x : Res α} {f : α → Res β} {b : β} :
    x.bind f = .ok b ↔ ∃ a, x = .ok a ∧ f a = .ok b := by
  cases x <;> simp [Res.bind]

/-- A sequence of stages raises a fault exactly when the first stage does, or the second after it. -/
theorem Res.bind_eq_raise {α β : Type} {x : Res α} {f : α → Res β} {k : FaultKind} :
    x.bind f = .raise k ↔ x = .raise k ∨ ∃ a, x = .ok a ∧ f a = .raise k := by
  cases x <;> simp [Res.bind]

/-- A sequence of stages is refused exactly when the first stage is, or the second after it. -/
theorem Res.bind_eq_refuse {α β : Type} {x : Res α} {f : α → Res β} {r : Refusal} :
    x.bind f = .refuse r ↔ x = .refuse r ∨ ∃ a, x = .ok a ∧ f a = .refuse r := by
  cases x <;> simp [Res.bind]

@[simp] theorem Res.ok_bind {α β : Type} (a : α) (f : α → Res β) : (Res.ok a).bind f = f a := rfl

@[simp] theorem Res.raise_bind {α β : Type} (k : FaultKind) (f : α → Res β) : (Res.raise k).bind f = .raise k := rfl

@[simp] theorem Res.refuse_bind {α β : Type} (r : Refusal) (f : α → Res β) : (Res.refuse r).bind f = .refuse r := rfl

/-- With the spec's default MEM_LIMIT every read answers the cell (R41, R44). -/
@[simp] theorem load_eq (s : State) (a : Addr) : load s a = .ok (s.mem.read a) := rfl

/-- With the spec's default MEM_LIMIT every write is done (R42, R44). -/
@[simp] theorem store_eq (s : State) (a : Addr) (v : Cell) : store s a v = .ok (s.setMem (s.mem.write a v)) := rfl

/-- A step that settles in a next state did its whole effect, or took one fault and had no effect (R197). -/
theorem settle_eq_next {s t : State} {x : Res State} :
    settle s x = .next t ↔ x = .ok t ∨ ∃ k, x = .raise k ∧ t = s.withFault k := by
  cases x <;> simp [settle, State.takeFault_eq_withFault, eq_comm]

/-- A cell answered for an exact value has that value. -/
theorem exactCell_eq_some {v : Int} {c : Cell} : exactCell v = some c ↔ IsCell v ∧ c = cellOf v := by
  simp only [exactCell, cellOf, IsCell]
  split <;> simp_all [eq_comm]

/-- A value in the cell range is the value of its cell. -/
theorem toInt_cellOf {v : Int} (h : IsCell v) : (cellOf v).toInt = v := by
  simp only [IsCell, cellMin, cellMax] at h
  rw [cellOf, BitVec.toInt_ofInt_eq_self (by decide)] <;> norm_num <;> omega

/-- Every cell has a value in the cell range (R31 (a)). -/
theorem isCell_toInt (c : Cell) : IsCell c.toInt := by
  have h1 := c.le_toInt
  have h2 := c.toInt_lt
  simp only [IsCell, cellMin, cellMax]
  norm_num at h1 h2
  omega

/-- Narrowing answers the cell of a value in range, and else raises ArithmeticOverflow (R103). -/
theorem narrow_of_isCell {v : Int} (h : IsCell v) : narrow v = .ok (cellOf v) := by
  simp only [narrow, exactCell_eq_some.mpr ⟨h, rfl⟩]

/-- The other side of `narrow_of_isCell`. -/
theorem narrow_of_not_isCell {v : Int} (h : ¬ IsCell v) : narrow v = .raise .arithmeticOverflow := by
  simp only [narrow, exactCell, if_neg h]

/-- The truth values are 0 and 1 (R132). -/
theorem boolCell_cases (p : Bool) : boolCell p = 0 ∨ boolCell p = 1 := by cases p <;> simp [boolCell]

/-- The states a `run` steps from: all but the terminal ones (R167, R169). -/
theorem State.resume_eq (s : State) : s.resume = if s.st.terminal then none else some (s.setSt .running) := by
  cases h : s.st <;> simp [State.resume, RunState.terminal, h]

/-- Fetch and decode of a legal instruction cell. -/
theorem fetchDecode_of_legal {s : State} {i : Instr} (h : decode (s.mem.read s.pc) = .legal i) :
    fetchDecode s = .ok i := by
  simp [fetchDecode, h]

/-- Fetch and decode of an illegal instruction cell (R82). -/
theorem fetchDecode_of_illegal {s : State} {c : IllegalCause} (h : decode (s.mem.read s.pc) = .illegal c) :
    fetchDecode s = .raise .illegalInstruction := by
  simp [fetchDecode, h]

end Sys2Proof.Machine
end

