-- ==== Sys2Proof/Laws/Operands.lean ====
section
/-! SUPPORT. What the stages between decode and execute can do, and the shapes shared by several instructions. -/

namespace Sys2Proof.Machine

/-- The check of a written slot answers only IllegalInstruction or nothing. -/
theorem checkWritten_eq (m : Mode) :
    checkWritten m = if m = .immediate then .raise .illegalInstruction else .ok () := by
  cases m <;> rfl

/-- The top-of-space check passes exactly where there is room (R83). -/
theorem checkTop_eq (s : State) (n : Nat) : checkTop s n = if s.room n then .ok () else .raise .addressFault := by
  simp only [checkTop, State.room]
  split <;> split <;> first | rfl | omega

/-- A cell that is not negative has the same value as an address. -/
theorem toNat_eq_toInt {c : Cell} (h : 0 ≤ c.toInt) : (c.toNat : Int) = c.toInt := by
  have hl := c.isLt
  by_cases hc : 2 * c.toNat < 2 ^ 64
  · rw [BitVec.toInt_eq_toNat_cond, if_pos hc]
  · rw [BitVec.toInt_eq_toNat_cond, if_neg hc] at h
    omega

/-- The Position mode of the resolver (R85, R88). -/
theorem resolve_position (s : State) (k : Nat) :
    resolve s k .position = nonNegative (s.mem.read (slotAddr s k)) := rfl

/-- The Immediate mode of the resolver (R86). -/
theorem resolve_immediate (s : State) (k : Nat) : resolve s k .immediate = .ok (slotAddr s k) := rfl

/-- The Relative mode of the resolver (R87 to R89). -/
theorem resolve_relative (s : State) (k : Nat) :
    resolve s k .relative = (narrow ((s.mem.read (slotAddr s k)).toInt + s.rb.toInt)).bind nonNegative := rfl

/-- The resolver of a slot is never refused: with the default MEM_LIMIT it answers an address, AddressFault or
ArithmeticOverflow. -/
theorem resolve_cases (s : State) (k : Nat) (m : Mode) :
    (∃ a, resolve s k m = .ok a) ∨ resolve s k m = .raise .addressFault ∨
      resolve s k m = .raise .arithmeticOverflow := by
  cases m
  · rw [resolve_position, nonNegative]
    split <;> simp
  · exact .inl ⟨_, rfl⟩
  · rw [resolve_relative]
    by_cases h : IsCell ((s.mem.read (slotAddr s k)).toInt + s.rb.toInt)
    · rw [narrow_of_isCell h, Res.ok_bind, nonNegative]
      split <;> simp
    · rw [narrow_of_not_isCell h]
      simp

/-- What a one-slot resolution needs (R83, R93). -/
theorem resolve1_eq_ok {s : State} {m1 : Mode} {a : Addr} :
    resolve1 s m1 = .ok a ↔ s.room 1 ∧ resolve s 1 m1 = .ok a := by
  simp only [resolve1, Res.bind_eq_ok, checkTop_eq]
  split <;> simp_all

/-- What a two-slot resolution needs (R83, R90). -/
theorem resolve2_eq_ok {s : State} {m1 m2 : Mode} {a : Addr × Addr} :
    resolve2 s m1 m2 = .ok a ↔ s.room 2 ∧ resolve s 1 m1 = .ok a.1 ∧ resolve s 2 m2 = .ok a.2 := by
  obtain ⟨a1, a2⟩ := a
  simp only [resolve2, Res.bind_eq_ok, checkTop_eq, Res.ok.injEq, Prod.mk.injEq]
  split
  · simp_all
  · simp_all

/-- What a three-slot resolution needs (R83, R90). -/
theorem resolve3_eq_ok {s : State} {m1 m2 m3 : Mode} {a : Addr × Addr × Addr} :
    resolve3 s m1 m2 m3 = .ok a ↔
      s.room 3 ∧ resolve s 1 m1 = .ok a.1 ∧ resolve s 2 m2 = .ok a.2.1 ∧ resolve s 3 m3 = .ok a.2.2 := by
  obtain ⟨a1, a2, a3⟩ := a
  simp only [resolve3, Res.bind_eq_ok, checkTop_eq, Res.ok.injEq, Prod.mk.injEq]
  split
  · simp_all
  · simp_all

/-- Everything a three-slot instruction that stores can do: its one store and its advance, or one fault taken
in the state before it. -/
theorem binaryStore_cases {f : Cell → Cell → Res Cell} {m1 m2 m3 : Mode} {s t : State}
    (h : binaryStore f m1 m2 m3 s = .next t) :
    (∃ a r, m3 ≠ .immediate ∧ resolve3 s m1 m2 m3 = .ok a ∧ f (s.mem.read a.1) (s.mem.read a.2.1) = .ok r ∧
      t = (s.setMem (s.mem.write a.2.2 r)).advance 4) ∨ ∃ k, t = s.withFault k := by
  rcases settle_eq_next.mp h with h | ⟨k, -, rfl⟩
  · simp only [Res.bind_eq_ok, load_eq, store_eq, Res.ok.injEq, checkWritten_eq] at h
    obtain ⟨_, hw, a, ha, _, rfl, _, rfl, r, hr, _, rfl, rfl⟩ := h
    exact .inl ⟨a, r, by intro hm; simp [hm] at hw, ha, hr, rfl⟩
  · exact .inr ⟨k, rfl⟩

/-- Everything a jump can do: only `pc` changes, to the target where the condition holds and else by 3, or one
fault is taken in the state before it. -/
theorem jumpIf_cases {cond : Cell → Bool} {m1 m2 : Mode} {s t : State} (h : jumpIf cond m1 m2 s = .next t) :
    (∃ a, resolve2 s m1 m2 = .ok a ∧
      ((cond (s.mem.read a.1) = true ∧ 0 ≤ (s.mem.read a.2).toInt ∧ t = s.setPc (s.mem.read a.2)) ∨
        (cond (s.mem.read a.1) = false ∧ t = s.advance 3))) ∨ ∃ k, t = s.withFault k := by
  rcases settle_eq_next.mp h with h | ⟨k, -, rfl⟩
  · simp only [Res.bind_eq_ok, load_eq, Res.ok.injEq] at h
    obtain ⟨a, ha, _, rfl, _, rfl, h⟩ := h
    refine .inl ⟨a, ha, ?_⟩
    split at h
    · next hc =>
      obtain ⟨p, hp, ht⟩ := Res.bind_eq_ok.mp h
      simp only [nonNegative] at hp
      split at hp
      · simp at hp
      · next hn =>
        simp only [Res.ok.injEq] at hp ht
        subst hp ht
        exact .inl ⟨hc, by omega, rfl⟩
    · next hc => exact .inr ⟨by simpa using hc, by simpa [eq_comm] using h⟩
  · exact .inr ⟨k, rfl⟩

end Sys2Proof.Machine
end

