-- ==== Sys2Proof/Laws/Step.lean ====
section
/-! SUPPORT. What the one-slot meanings, a step and a run can do. -/

namespace Sys2Proof.Machine

/-- Everything an In can do: suspend with only `st` changed, consume the front of the queue, or take one fault
in the state before it (R110). -/
theorem execInp_cases {m1 : Mode} {s t : State} (h : execInp m1 s = .next t) :
    (∃ a, m1 ≠ .immediate ∧ resolve1 s m1 = .ok a ∧
      ((s.inq = [] ∧ t = s.setSt .suspendedOnInput) ∨
        ∃ v rest, s.inq = v :: rest ∧ t = ((s.setMem (s.mem.write a v)).setInq rest).advance 2)) ∨
      ∃ k, t = s.withFault k := by
  rcases settle_eq_next.mp h with h | ⟨k, -, rfl⟩
  · simp only [Res.bind_eq_ok, checkWritten_eq] at h
    obtain ⟨_, hw, a, ha, h⟩ := h
    refine .inl ⟨a, by intro hm; simp [hm] at hw, ha, ?_⟩
    split at h
    · next hq => exact .inl ⟨hq, by simpa [eq_comm] using h⟩
    · next v rest hq => exact .inr ⟨v, rest, hq, by simpa [eq_comm] using h⟩
  · exact .inr ⟨k, rfl⟩

/-- Everything an Out can do: advance and suspend with the value, or take one fault in the state before it
(R111). -/
theorem execOut_cases {m1 : Mode} {s t : State} (h : execOut m1 s = .next t) :
    (∃ a, resolve1 s m1 = .ok a ∧ t = (s.advance 2).setSt (.suspendedOnOutput (s.mem.read a))) ∨
      ∃ k, t = s.withFault k := by
  rcases settle_eq_next.mp h with h | ⟨k, -, rfl⟩
  · simp only [Res.bind_eq_ok, load_eq, Res.ok.injEq] at h
    obtain ⟨a, ha, _, rfl, rfl⟩ := h
    exact .inl ⟨a, ha, rfl⟩
  · exact .inr ⟨k, rfl⟩

/-- Everything an Rbo can do: move the base by a value that keeps it a cell, or take one fault in the state
before it (R140). -/
theorem execRbo_cases {m1 : Mode} {s t : State} (h : execRbo m1 s = .next t) :
    (∃ a, resolve1 s m1 = .ok a ∧ IsCell (s.rb.toInt + (s.mem.read a).toInt) ∧
      t = (s.setRb (cellOf (s.rb.toInt + (s.mem.read a).toInt))).advance 2) ∨ ∃ k, t = s.withFault k := by
  rcases settle_eq_next.mp h with h | ⟨k, -, rfl⟩
  · simp only [Res.bind_eq_ok, load_eq, Res.ok.injEq] at h
    obtain ⟨a, ha, _, rfl, r, hr, rfl⟩ := h
    by_cases hc : IsCell (s.rb.toInt + (s.mem.read a).toInt)
    · rw [narrow_of_isCell hc] at hr
      simp only [Res.ok.injEq] at hr
      exact .inl ⟨a, ha, hc, by rw [hr]⟩
    · simp [narrow_of_not_isCell hc] at hr
  · exact .inr ⟨k, rfl⟩

/-- Everything a step can do: nothing in a terminal state; else, from Running, take IllegalInstruction on an
illegal cell or execute the decoded instruction (R80, R167, R169). -/
theorem step_cases {s : State} {x : Host.Outcome State Fault Refusal} (h : step s = x) :
    (s.st.terminal = true ∧ x = .next s) ∨
      (s.st.terminal = false ∧
        ((∃ c, decode (s.mem.read s.pc) = .illegal c ∧ x = .next (s.withFault .illegalInstruction)) ∨
          ∃ i, decode (s.mem.read s.pc) = .legal i ∧ x = exec i (s.setSt .running))) := by
  subst h
  cases ht : s.st.terminal
  · refine .inr ⟨rfl, ?_⟩
    have hr : s.resume = some (s.setSt .running) := by simp [State.resume_eq, ht]
    cases hd : decode (s.mem.read s.pc) with
    | illegal c =>
      have hf : fetchDecode (s.setSt .running) = .raise .illegalInstruction := fetchDecode_of_illegal hd
      exact .inl ⟨c, rfl, by simp only [step, stepWith, hr, hf]; rfl⟩
    | legal i =>
      have hf : fetchDecode (s.setSt .running) = .ok i := fetchDecode_of_legal hd
      exact .inr ⟨i, rfl, by simp only [step, stepWith, hr, hf]⟩
  · exact .inl ⟨rfl, by simp [step, stepWith, State.resume_eq, ht]⟩

/-- A run of bounded length that stopped took one step and stopped in the state it led to, or went on from
there (R167, R168). -/
theorem runFor_succ_eq_stopped {n : Nat} {s t : State} {r : StopReason} :
    runFor (n + 1) s = .stopped r t ↔ ∃ u, step s = .next u ∧
      ((u.st.stopReason = some r ∧ u = t) ∨ (u.st.stopReason = none ∧ runFor n u = .stopped r t)) := by
  simp only [runFor]
  cases step s with
  | next u => cases hu : u.st.stopReason <;> simp [hu]
  | fault f => exact nomatch f
  | refused r => simp

end Sys2Proof.Machine
end

