-- ==== Sys2Proof/Laws/PerInstr.lean ====
section
/-! SUPPORT. A statement about every instruction as syntax, one lemma per constructor: its instruction cell is
a number of at most five digits whose low two digits are its opcode (30_encoding.md R61, R63, R70). -/

namespace Sys2Proof.Laws.CellShape

/-- The instruction cell lies in 1 .. 22299 and `c mod 100` is the opcode (R61, R70). -/
def Statement (i : Sys2Proof.Instr) : Prop :=
  (Sys2Proof.encode i).toNat % 100 = i.mnemonic.opcode ∧ 1 ≤ (Sys2Proof.encode i).toNat ∧
    (Sys2Proof.encode i).toNat ≤ 22299

theorem add (m1 m2 m3 : Sys2Proof.Mode) : Statement (.add m1 m2 m3) := by
  unfold Statement; cases m1 <;> cases m2 <;> cases m3 <;> decide

theorem mul (m1 m2 m3 : Sys2Proof.Mode) : Statement (.mul m1 m2 m3) := by
  unfold Statement; cases m1 <;> cases m2 <;> cases m3 <;> decide

theorem inp (m1 m2 m3 : Sys2Proof.Mode) : Statement (.inp m1 m2 m3) := by
  unfold Statement; cases m1 <;> cases m2 <;> cases m3 <;> decide

theorem out (m1 m2 m3 : Sys2Proof.Mode) : Statement (.out m1 m2 m3) := by
  unfold Statement; cases m1 <;> cases m2 <;> cases m3 <;> decide

theorem jit (m1 m2 m3 : Sys2Proof.Mode) : Statement (.jit m1 m2 m3) := by
  unfold Statement; cases m1 <;> cases m2 <;> cases m3 <;> decide

theorem jif (m1 m2 m3 : Sys2Proof.Mode) : Statement (.jif m1 m2 m3) := by
  unfold Statement; cases m1 <;> cases m2 <;> cases m3 <;> decide

theorem lt (m1 m2 m3 : Sys2Proof.Mode) : Statement (.lt m1 m2 m3) := by
  unfold Statement; cases m1 <;> cases m2 <;> cases m3 <;> decide

theorem equ (m1 m2 m3 : Sys2Proof.Mode) : Statement (.equ m1 m2 m3) := by
  unfold Statement; cases m1 <;> cases m2 <;> cases m3 <;> decide

theorem rbo (m1 m2 m3 : Sys2Proof.Mode) : Statement (.rbo m1 m2 m3) := by
  unfold Statement; cases m1 <;> cases m2 <;> cases m3 <;> decide

theorem halt (m1 m2 m3 : Sys2Proof.Mode) : Statement (.halt m1 m2 m3) := by
  unfold Statement; cases m1 <;> cases m2 <;> cases m3 <;> decide

end Sys2Proof.Laws.CellShape
end

