-- ==== Sys2Proof/Tests/Slice0.lean ====
section
/-! SUPPORT. Tests of the model. Expected results are the spec's: the decode table and the single-step vectors of
95_test_vectors.md, the worked examples of the rules, or hand calculation from the rules, named in each docstring.
The last part shows, for every statement with hypotheses, concrete values that meet them. -/

open Sys2Proof Sys2Proof.Machine

namespace Sys2Proof.Tests

/-- CELL_MAX as a cell (R5). -/
def maxCell : Cell := 9223372036854775807

/-- CELL_MIN as a cell, in two's complement (R5). -/
def minCell : Cell := 9223372036854775808

/-- A Running machine with an image from address 0 on. -/
def machine (image : List Cell) (pc : Addr) (rb : Cell) (inq : List Cell) : State :=
  { State.loaded image inq with pc := pc, rb := rb }

/-- The state after one step. -/
def after (s : State) : Option State := Answer.next? (step s)

/-- `pc`, `st` and one memory cell after one step. -/
def shows (s : State) (a : Addr) : Option (Addr × RunState × Cell) :=
  (after s).map fun t => (t.pc, t.st, t.mem.read a)

/-! ## Well-formedness: R67 (e), one ill-formed term for each check -/

theorem test_wf_add_immediate_destination : (Instr.add .position .position .immediate).wellFormed = false := by
  decide

theorem test_wf_mul_immediate_destination : (Instr.mul .relative .position .immediate).wellFormed = false := by
  decide

theorem test_wf_inp_immediate_destination : (Instr.inp .immediate .position .position).wellFormed = false := by
  decide

theorem test_wf_lt_immediate_destination : (Instr.lt .immediate .immediate .immediate).wellFormed = false := by
  decide

theorem test_wf_equ_immediate_destination : (Instr.equ .position .relative .immediate).wellFormed = false := by
  decide

/-! ## Decoding: cells written digit by digit (R61 to R63) or taken from 95_test_vectors.md section 2.1 -/

theorem test_decode_add : decode (1 + 100 * 2 + 1000 * 1 + 10000 * 2) = .legal (.add .relative .immediate .relative) ∧
    decode 1101 = .legal (.add .immediate .immediate .position) := by decide

theorem test_decode_mul : decode (2 + 100 * 0 + 1000 * 1 + 10000 * 0) = .legal (.mul .position .immediate .position) := by
  decide

theorem test_decode_inp : decode (3 + 100 * 2) = .legal (.inp .relative .position .position) := by decide

theorem test_decode_out : decode (4 + 100 * 1) = .legal (.out .immediate .position .position) ∧
    decode 1004 = .legal (.out .position .immediate .position) := by decide

theorem test_decode_jit : decode (5 + 100 * 1 + 1000 * 2) = .legal (.jit .immediate .relative .position) := by decide

theorem test_decode_jif : decode (6 + 100 * 2 + 1000 * 1) = .legal (.jif .relative .immediate .position) := by decide

theorem test_decode_lt : decode (7 + 100 * 1 + 1000 * 0 + 10000 * 2) = .legal (.lt .immediate .position .relative) := by
  decide

theorem test_decode_equ : decode (8 + 100 * 2 + 1000 * 2 + 10000 * 2) = .legal (.equ .relative .relative .relative) := by
  decide

theorem test_decode_rbo : decode (9 + 100 * 1) = .legal (.rbo .immediate .position .position) := by decide

theorem test_decode_halt : decode 99 = .legal (.halt .position .position .position) ∧
    decode 2099 = .legal (.halt .position .relative .position) ∧
    decode 22299 = .legal (.halt .relative .relative .relative) := by decide

theorem test_decode_illegal_causes : decode (-99) = .illegal .negative ∧ decode 100099 = .illegal .aboveFiveDigits ∧
    decode 100 = .illegal .badOpcode ∧ decode 98 = .illegal .badOpcode ∧ decode 30099 = .illegal .badModeDigit ∧
    decode 12301 = .illegal .badModeDigit ∧ decode 10001 = .illegal .immediateWritten ∧
    decode 11107 = .illegal .immediateWritten := by decide

/-- R74's examples. -/
theorem test_assemble_examples :
    assemble .mul [.position 4, .immediate 3, .position 4] = some [1002, 4, 3, 4] ∧
    assemble .add [.relative 1, .immediate (-1), .relative 2] = some [21201, 1, -1, 2] ∧
    assemble .halt [] = some [99] ∧ assemble .inp [.immediate 0] = none := by decide

/-- The table's bits: the first cell is the low 64 bits; V-MUL-1's Mul as one word. -/
theorem test_table_word : decodeTableWord 256 (1002 + 4 * 2 ^ 64 + 3 * 2 ^ 128 + 4 * 2 ^ 192)
      = some (.mul .position .immediate .position) ∧
    decodeTableWord 8 99 = some (.halt .position .position .position) ∧ decodeTableWord 64 0 = none := by decide

/-- An instruction placed at reset is the first that runs: R111 on `[104, 5]`. -/
theorem test_fetch_word : shows (State.reset.withFetchWord 128 (104 + 5 * 2 ^ 64)) 1
    = some (2, .suspendedOnOutput 5, 5) := by decide

/-! ## Single steps -/

/-- V-ADD-3: Relative source and destination. -/
theorem test_add_relative : shows (machine [21201, 1, -1, 2, 99, 0, 0, 0, 0, 0, 0, 5] 0 10 []) 12
    = some (4, .running, 4) := by decide

/-- V-ADD-5: `MAX + 1`. -/
theorem test_add_overflow : shows (machine [1101, maxCell, 1, 5, 99, 0] 0 0 []) 5
    = some (0, .faulted ⟨.arithmeticOverflow, 1101, 0⟩, 0) := by decide

/-- V-MUL-6: `-2^32 * 2^31 = MIN` fits. -/
theorem test_mul_lowest : shows (machine [1102, -4294967296, 2147483648, 5, 99] 0 0 []) 5
    = some (4, .running, minCell) := by decide

/-- V-MUL-7: `MIN * -1` does not. -/
theorem test_mul_overflow : shows (machine [1102, minCell, -1, 5, 99, 0] 0 0 []) 5
    = some (0, .faulted ⟨.arithmeticOverflow, 1102, 0⟩, 0) := by decide

/-- V-IN-4: Relative destination beyond the image, a negative value, the front of the queue consumed. -/
theorem test_inp_relative : shows (machine [203, 3, 99] 0 10 [-5]) 13 = some (2, .running, -5) ∧
    (after (machine [203, 3, 99] 0 10 [-5])).map State.inq = some [] := by decide

/-- V-IN-2 and V-IN-6: an empty queue suspends and changes nothing else; a bad destination faults first. -/
theorem test_inp_starved :
    after (machine [3, 0, 4, 0, 99] 0 0 []) = some { machine [3, 0, 4, 0, 99] 0 0 [] with st := .suspendedOnInput } ∧
    shows (machine [3, -1, 99] 0 0 []) 0 = some (0, .faulted ⟨.addressFault, 3, 0⟩, 3) := by decide

/-- V-OUT-3: Relative source; `pc` has advanced. -/
theorem test_out_relative : shows (machine [204, -1, 99] 0 3 []) 2 = some (2, .suspendedOnOutput 99, 99) := by decide

/-- V-OUT-6: the digit of an absent slot is ignored. -/
theorem test_out_absent_digit : shows (machine [1004, 2, 99] 0 0 []) 2 = some (2, .suspendedOnOutput 99, 99) := by
  decide

/-- V-JIT-3: a negative condition is true, the target is indirect. -/
theorem test_jit_indirect : shows (machine [5, 3, 4, -1, 6, 99, 99] 0 0 []) 0 = some (6, .running, 5) := by decide

/-- V-JIT-6 and V-JIT-7: not taken, a negative target VALUE is not looked at, a negative target ADDRESS faults. -/
theorem test_jit_not_taken : shows (machine [1105, 0, -1, 99] 0 0 []) 0 = some (3, .running, 1105) ∧
    shows (machine [5, 3, -1, 0, 99] 0 0 []) 0 = some (0, .faulted ⟨.addressFault, 5, 0⟩, 5) := by decide

/-- V-JIF-3: a condition cell never written is 0. -/
theorem test_jif_taken : shows (machine [6, 50, 4, 99, 6] 0 0 []) 0 = some (6, .running, 6) := by decide

/-- V-JIF-4: a taken jump to a negative target. -/
theorem test_jif_negative : shows (machine [1106, 0, -7] 0 0 []) 0
    = some (0, .faulted ⟨.addressFault, 1106, 0⟩, 1106) := by decide

/-- V-LT-2 and V-LT-4: slot 1 against slot 2, signed. -/
theorem test_lt : shows (machine [1107, 8, 3, 5, 99, -1] 0 0 []) 5 = some (4, .running, 0) ∧
    shows (machine [1107, -1, 0, 5, 99, -1] 0 0 []) 5 = some (4, .running, 1) := by decide

/-- V-LT-6: the extremes reversed. -/
theorem test_lt_extremes : shows (machine [1107, maxCell, minCell, 5, 99, -1] 0 0 []) 5 = some (4, .running, 0) := by
  decide

/-- V-EQU-2: the sign matters. -/
theorem test_equ_sign : shows (machine [1108, 8, -8, 5, 99, -1] 0 0 []) 5 = some (4, .running, 0) := by decide

/-- V-EQU-5: the destination is the instruction's own cell. -/
theorem test_equ_own_cell : shows (machine [1108, 1, 1, 0, 99] 0 0 []) 0 = some (4, .running, 1) := by decide

/-- V-RBO-4: the operand is read with the old base. -/
theorem test_rbo_old_base : (after (machine [209, 1, 99, 40] 0 2 [])).map (fun t => (t.pc, t.rb))
    = some (2, 42) := by decide

/-- V-RBO-6: underflow leaves the base. -/
theorem test_rbo_overflow : (after (machine [109, -1, 99] 0 minCell [])).map (fun t => (t.pc, t.rb, t.st))
    = some (0, minCell, .faulted ⟨.arithmeticOverflow, 109, 0⟩) := by decide

/-- V-HALT-5: pending input stays. -/
theorem test_halt : after (machine [99] 0 0 [1, 2]) = some { machine [99] 0 0 [1, 2] with st := .halted } := by decide

/-- V-HALT-4: a digit 3 is illegal on Halt too. -/
theorem test_halt_bad_digit : shows (machine [399] 0 0 []) 0
    = some (0, .faulted ⟨.illegalInstruction, 399, 0⟩, 399) := by decide

/-- V-TOP-2 and V-TOP-4: the top of the address space. -/
theorem test_top_of_space :
    (after { State.reset with pc := 18446744073709551615, mem := Memory.empty.write 18446744073709551615 104 }).map
        State.st = some (.faulted ⟨.addressFault, 104, 18446744073709551615⟩) ∧
    (after { State.reset with
        pc := 18446744073709551613,
        mem := (Memory.empty.write 18446744073709551613 104).write 18446744073709551614 5 }).map
        (fun t => (t.pc, t.st)) = some (18446744073709551615, .suspendedOnOutput 5) := by decide

/-- V-RES-5, V-RES-7 and V-RES-8: overflow before a negative sum, and slot 1 before slot 2. -/
theorem test_resolver_order :
    (after (machine [204, minCell, 99] 0 (-1) [])).map State.st = some (.faulted ⟨.arithmeticOverflow, 204, 0⟩) ∧
    (after (machine [201, maxCell, -1, 5, 99] 0 1 [])).map State.st
      = some (.faulted ⟨.arithmeticOverflow, 201, 0⟩) ∧
    (after (machine [2001, -1, maxCell, 5, 99] 0 1 [])).map State.st
      = some (.faulted ⟨.addressFault, 2001, 0⟩) := by decide

/-- S7, a value fed to a suspended machine: `feed` does not run it, the next step does. -/
theorem test_feed_resumes :
    ((feed 42 { machine [3, 0, 4, 0, 99] 0 0 [] with st := .suspendedOnInput }).next?.map fun t => (t.st, t.inq))
      = some (.suspendedOnInput, [42]) ∧
    shows { machine [3, 0, 4, 0, 99] 0 0 [42] with st := .suspendedOnInput } 0 = some (2, .running, 42) := by decide

/-- R166's example: `feed_text("A\n")`. -/
theorem test_feed_text : (feedText ['A', '\n'] State.reset).next?.map State.inq = some [65, 10] := by decide

/-- S2, driven: the outputs and the StopReason. -/
theorem test_drive : (drive 4 2 (machine [3, 0, 4, 0, 99] 0 0 [42])).1 = [42] ∧
    ∃ t, (drive 4 2 (machine [3, 0, 4, 0, 99] 0 0 [42])).2 = .stopped .halted t := ⟨by decide, _, rfl⟩

/-- S3's image from its assembly, and a jump to a label (R72): `Jit #1, #end` at 0, a cell of data, `end: Halt`. -/
theorem test_assemble_program :
    assembleProgram [.instr .mul [(.position, .value 4), (.immediate, .value 3), (.position, .value 4)], .data [33]]
      = some [1002, 4, 3, 4, 33] ∧
    assembleProgram [.instr .jit [(.immediate, .value 1), (.immediate, .label "end")], .data [7], .label "end",
      .instr .halt []] = some [1105, 1, 4, 7, 99] := by decide

/-! ## What meets the hypotheses of the statements

Each theorem is named after its statement and shows values that meet the hypotheses of one clause of it, or of
several together. -/

theorem test_wit_DecodeOfEncode : (Instr.equ .relative .relative .relative).wellFormed = true := by decide

theorem test_wit_EncodeOfDecode : decode 1 = .legal (.add .position .position .position) ∧
    decode 22299 = .legal (.halt .relative .relative .relative) := by decide

/-- One cell for each disjunct, and reset, whose cell at `pc` is 0. -/
theorem test_wit_IllegalCellsExactly : (IllegalCell (-1) ∧ IllegalCell 100000 ∧ IllegalCell 0 ∧ IllegalCell 399 ∧
    IllegalCell 3004 ∧ IllegalCell 30099 ∧ IllegalCell 10001 ∧ IllegalCell 103) ∧
    State.reset.st = .running ∧ IllegalCell (State.reset.mem.read State.reset.pc) := by
  refine ⟨⟨?_, ?_, ?_, ?_, ?_, ?_, ?_, ?_⟩, rfl, ?_⟩ <;> unfold IllegalCell <;> decide

theorem test_wit_LegalCellCounts : decode 1 = .legal (Instr.add .position .position .position) ∧
    (Instr.add .position .position .position).mnemonic = .add := by decide

/-- Digit 3 in the first absent slot of an In and 9 in the last one of a Jit. -/
theorem test_wit_AbsentSlotDigitsIgnored : ((0 ≤ (3003 : Cell).toInt ∧ (3003 : Cell).toInt ≤ 99999 ∧
      (3003 : Cell).toNat % 100 = Mnemonic.inp.opcode ∧ 2 < (3003 : Cell).toNat / 10 ^ (2 + 1) % 10) ∧
    ((90005 : Cell).toInt ≤ 99999 ∧ (90005 : Cell).toNat % 100 = Mnemonic.jit.opcode ∧ Mnemonic.jit.nparams < 3 ∧
      2 < (90005 : Cell).toNat / 10 ^ (3 + 1) % 10)) ∧
    Mode.position ≠ .immediate ∧ Mode.relative ≠ .immediate ∧
    assemble .inp [.relative 3] = some [203, 3] ∧ Mnemonic.inp.nparams < 2 := by decide

theorem test_wit_DisassembleOfAssemble : assemble .out [.immediate 1125899906842624] = some [104, 1125899906842624] := by
  decide

theorem test_wit_StepRunsDecoded : (machine [1, 0, 0, 0, 99] 0 0 []).st = .running ∧
    decode ((machine [1, 0, 0, 0, 99] 0 0 []).mem.read 0) = .legal (.add .position .position .position) := by decide

theorem test_wit_SuspendedStepsLikeRunning : (RunState.suspendedOnOutput 7).terminal = false ∧
    RunState.suspendedOnInput.terminal = false ∧ RunState.running.terminal = false := by decide

/-- V-TOP-3 for the fault, one cell below the first `pc` that has room; V-TOP-1 for Halt. -/
theorem test_wit_TopOfSpaceFaults :
    (decode ((Memory.empty.write 18446744073709551614 104).read 18446744073709551614)
        = .legal (.out .immediate .position .position) ∧
      addrMax < (18446744073709551614 : Addr).toNat + (Instr.out .immediate .position .position).nparams + 1) ∧
    decode ((Memory.empty.write 18446744073709551615 99).read 18446744073709551615)
        = .legal (.halt .position .position .position) := by decide

/-- R95's table, with `pc = 10` and `rb = 7`. -/
def r95 (p1 p2 : Cell) : State := machine [0, 0, 0, 0, 0, 0, 0, 0, 0, 0, 21201, p1, p2, 1000000] 10 7 []

theorem test_wit_ResolveAsSpecified :
    (r95 40 (-7)).slotAt 1 .position 40 ∧ (r95 40 (-7)).slotAt 1 .immediate 11 ∧
    (r95 40 (-7)).slotAt 1 .relative 47 ∧ (r95 40 (-7)).slotAt 2 .relative 0 ∧
    (r95 40 (-7)).slotAt 3 .position 1000000 ∧ (r95 40 (-8)).addressNegative 2 .relative ∧
    (r95 (-1) 0).addressNegative 1 .position ∧ (r95 maxCell 0).sumOverflows 1 .relative ∧
    (10 : Addr).toNat + 3 ≤ addrMax := by
  unfold State.addressNegative State.sumOverflows; simp only [State.slotAt]; decide

/-- The largest `pc` with room for three parameters, and the largest Position address. -/
theorem test_wit_ResolvedAddressRanges :
    { State.reset with pc := 18446744073709551611 }.room 3 ∧
    resolve { State.reset with pc := 18446744073709551611 } 3 .immediate = .ok 18446744073709551614 ∧
    resolve (machine [4, maxCell] 0 0 []) 1 .position = .ok maxCell ∧ State.reset.rb = 0 := by decide

/-- Slot 3 faults behind two slots that resolve (a negative address), and slot 1 on an overflowing sum. -/
theorem test_wit_FirstFaultingSlotWins :
    ((machine [1, 0, 0, -2] 0 0 []).room 3 ∧ (machine [1, 0, 0, -2] 0 0 []).slotAt 1 .position 0 ∧
      (machine [1, 0, 0, -2] 0 0 []).slotAt 2 .position 0 ∧
      (machine [1, 0, 0, -2] 0 0 []).addressNegative 3 .position) ∧
    (machine [204, maxCell, 99] 0 1 []).room 1 ∧ (machine [204, maxCell, 99] 0 1 []).sumOverflows 1 .relative := by
  unfold State.addressNegative State.sumOverflows; simp only [State.slotAt]; decide

theorem test_wit_ImmediateWrittenSlotFaults : (Instr.inp .immediate .relative .position).wellFormed = false := by decide

/-- V-ADD-4, the largest sum, and V-ADD-5, one more. -/
theorem test_wit_AddStoresExactSum :
    ((machine [1101, maxCell, 0, 5, 99, 0] 0 0 []).room 3 ∧
      (machine [1101, maxCell, 0, 5, 99, 0] 0 0 []).slotAt 1 .immediate 1 ∧
      (machine [1101, maxCell, 0, 5, 99, 0] 0 0 []).slotAt 2 .immediate 2 ∧
      (machine [1101, maxCell, 0, 5, 99, 0] 0 0 []).slotAt 3 .position 5 ∧
      IsCell ((machine [1101, maxCell, 0, 5, 99, 0] 0 0 []).valueAt 1
        + (machine [1101, maxCell, 0, 5, 99, 0] 0 0 []).valueAt 2)) ∧
    ((machine [1101, maxCell, 1, 5, 99, 0] 0 0 []).slotAt 3 .position 5 ∧
      ¬ IsCell ((machine [1101, maxCell, 1, 5, 99, 0] 0 0 []).valueAt 1
        + (machine [1101, maxCell, 1, 5, 99, 0] 0 0 []).valueAt 2)) := by
  simp only [State.slotAt]; decide

/-- V-MUL-6, the least product, and V-MUL-5, the largest and one more. -/
theorem test_wit_MulStoresExactProduct :
    ((machine [1102, -4294967296, 2147483648, 5] 0 0 []).room 3 ∧
      (machine [1102, -4294967296, 2147483648, 5] 0 0 []).slotAt 1 .immediate 1 ∧
      (machine [1102, -4294967296, 2147483648, 5] 0 0 []).slotAt 2 .immediate 2 ∧
      (machine [1102, -4294967296, 2147483648, 5] 0 0 []).slotAt 3 .position 5 ∧
      IsCell ((machine [1102, -4294967296, 2147483648, 5] 0 0 []).valueAt 1
        * (machine [1102, -4294967296, 2147483648, 5] 0 0 []).valueAt 2)) ∧
    ((machine [1102, 4294967296, 2147483648, 5] 0 0 []).slotAt 3 .position 5 ∧
      ¬ IsCell ((machine [1102, 4294967296, 2147483648, 5] 0 0 []).valueAt 1
        * (machine [1102, 4294967296, 2147483648, 5] 0 0 []).valueAt 2)) := by
  simp only [State.slotAt]; decide

/-- V-IN-4 (fed), V-IN-2 (starved), V-IN-6 (negative), and an overflowing sum. -/
theorem test_wit_InConsumesFrontOrSuspends :
    ((machine [203, 3, 99] 0 10 [-5]).room 1 ∧ (machine [203, 3, 99] 0 10 [-5]).slotAt 1 .relative 13 ∧
      (machine [203, 3, 99] 0 10 [-5]).inq = -5 :: []) ∧
    ((machine [3, 0, 4, 0, 99] 0 0 []).slotAt 1 .position 0 ∧ (machine [3, 0, 4, 0, 99] 0 0 []).inq = []) ∧
    (machine [3, -1, 99] 0 0 []).addressNegative 1 .position ∧
    (machine [203, minCell, 99] 0 (-1) []).sumOverflows 1 .relative := by
  unfold State.addressNegative State.sumOverflows; simp only [State.slotAt]; decide

/-- V-OUT-3. -/
theorem test_wit_OutSuspendsWithValue : (machine [204, -1, 99] 0 3 []).room 1 ∧
    (machine [204, -1, 99] 0 3 []).slotAt 1 .relative 2 := by
  simp only [State.slotAt]; decide

/-- V-JIT-8 (taken, target 0), V-JIT-5 (taken, target -1), V-JIT-2 (not taken). -/
theorem test_wit_JitJumpsIfNotZero :
    ((machine [1105, 1, 0] 0 0 []).room 2 ∧ (machine [1105, 1, 0] 0 0 []).slotAt 1 .immediate 1 ∧
      (machine [1105, 1, 0] 0 0 []).slotAt 2 .immediate 2 ∧ (machine [1105, 1, 0] 0 0 []).valueAt 1 ≠ 0 ∧
      0 ≤ (machine [1105, 1, 0] 0 0 []).valueAt 2) ∧
    ((machine [1105, 1, -1] 0 0 []).valueAt 1 ≠ 0 ∧ (machine [1105, 1, -1] 0 0 []).valueAt 2 < 0) ∧
    (machine [1105, 0, 4, 99] 0 0 []).valueAt 1 = 0 := by
  simp only [State.slotAt]; decide

/-- V-JIF-1 (taken), V-JIF-4 (taken, negative target), V-JIF-2 (not taken). -/
theorem test_wit_JifJumpsIfZero :
    ((machine [1106, 0, 4, 99] 0 0 []).room 2 ∧ (machine [1106, 0, 4, 99] 0 0 []).slotAt 1 .immediate 1 ∧
      (machine [1106, 0, 4, 99] 0 0 []).slotAt 2 .immediate 2 ∧ (machine [1106, 0, 4, 99] 0 0 []).valueAt 1 = 0 ∧
      0 ≤ (machine [1106, 0, 4, 99] 0 0 []).valueAt 2) ∧
    ((machine [1106, 0, -7] 0 0 []).valueAt 1 = 0 ∧ (machine [1106, 0, -7] 0 0 []).valueAt 2 < 0) ∧
    (machine [1106, 5, 4, 99] 0 0 []).valueAt 1 ≠ 0 := by
  simp only [State.slotAt]; decide

/-- V-LT-8. -/
theorem test_wit_LtStoresOneOrZero : (machine [7, 5, 6, 7, 99, 1, 2, 9] 0 0 []).room 3 ∧
    (machine [7, 5, 6, 7, 99, 1, 2, 9] 0 0 []).slotAt 1 .position 5 ∧
    (machine [7, 5, 6, 7, 99, 1, 2, 9] 0 0 []).slotAt 2 .position 6 ∧
    (machine [7, 5, 6, 7, 99, 1, 2, 9] 0 0 []).slotAt 3 .position 7 := by
  simp only [State.slotAt]; decide

/-- V-EQU-4. -/
theorem test_wit_EquStoresOneOrZero : (machine [21108, 0, 0, 1, 99] 0 100 []).room 3 ∧
    (machine [21108, 0, 0, 1, 99] 0 100 []).slotAt 1 .immediate 1 ∧
    (machine [21108, 0, 0, 1, 99] 0 100 []).slotAt 2 .immediate 2 ∧
    (machine [21108, 0, 0, 1, 99] 0 100 []).slotAt 3 .relative 101 := by
  simp only [State.slotAt]; decide

/-- V-RBO-8, the largest base, and V-RBO-5, one more. -/
theorem test_wit_RboAddsToBase :
    ((machine [109, maxCell, 99] 0 0 []).room 1 ∧ (machine [109, maxCell, 99] 0 0 []).slotAt 1 .immediate 1 ∧
      IsCell ((machine [109, maxCell, 99] 0 0 []).rb.toInt + (machine [109, maxCell, 99] 0 0 []).valueAt 1)) ∧
    ¬ IsCell ((machine [109, 1, 99] 0 maxCell []).rb.toInt + (machine [109, 1, 99] 0 maxCell []).valueAt 1) := by
  simp only [State.slotAt]; decide

/-- V-ADD-5 for a result, V-RES-4 for a Relative sum. -/
theorem test_wit_OverflowIsAFault :
    (decode ((machine [1101, maxCell, 1, 5] 0 0 []).mem.read 0) = .legal (.add .immediate .immediate .position) ∧
      (machine [1101, maxCell, 1, 5] 0 0 []).room 3 ∧ (machine [1101, maxCell, 1, 5] 0 0 []).slotAt 3 .position 5 ∧
      resultOverflows (.add .immediate .immediate .position) (machine [1101, maxCell, 1, 5] 0 0 [])) ∧
    (decode ((machine [204, maxCell, 99] 0 1 []).mem.read 0) = .legal (.out .relative .position .position) ∧
      (machine [204, maxCell, 99] 0 1 []).room 1 ∧ (machine [204, maxCell, 99] 0 1 []).sumOverflows 1 .relative) := by
  refine ⟨⟨by decide, by decide, by simp only [State.slotAt]; decide, 1, 2, ?_⟩, by decide, by decide, ?_⟩
  · simp only [State.slotAt]; decide
  · unfold State.sumOverflows; decide

/-- V-ADD-7 for Add; R104's bounds for Mul at their edge, and `-1` times a cell that is not CELL_MIN. -/
theorem test_wit_NeverOverflowBounds :
    ((machine [1101, minCell, maxCell, 5] 0 0 []).slotAt 3 .position 5 ∧
      (machine [1101, minCell, maxCell, 5] 0 0 []).valueAt 1 ≤ 0 ∧
      0 ≤ (machine [1101, minCell, maxCell, 5] 0 0 []).valueAt 2) ∧
    (|(machine [1102, 2147483647, 4294967296, 5] 0 0 []).valueAt 1| < 2 ^ 31 ∧
      |(machine [1102, 2147483647, 4294967296, 5] 0 0 []).valueAt 2| ≤ 2 ^ 32) ∧
    ((machine [1102, -1, maxCell, 5] 0 0 []).valueAt 1 = -1 ∧
      (machine [1102, -1, maxCell, 5] 0 0 []).valueAt 2 ≠ cellMin) := by
  simp only [State.slotAt]; decide

theorem test_wit_MemoryFrame : storeAddr (.add .position .position .position) (machine [1, 0, 0, 5] 0 0 []) = some 5 ∧
    storeAddr (.out .immediate .position .position) (machine [104, 7] 0 0 []) = none ∧
    ∃ t, exec (.add .position .position .position) (machine [1, 0, 0, 5] 0 0 []) = .next t :=
  ⟨by decide, by decide, _, rfl⟩

theorem test_wit_ComputeFrame : Mnemonic.mul ∈ [Mnemonic.add, .mul, .lt, .equ] ∧
    ∃ t, exec (.mul .immediate .immediate .position) (machine [1102, 2, 3, 5] 0 0 []) = .next t :=
  ⟨by decide, _, rfl⟩

theorem test_wit_ControlAndIoFrame :
    (∃ t, exec (.inp .position .position .position) (machine [3, 0] 0 0 [42]) = .next t) ∧
    (∃ t, exec (.out .position .position .position) (machine [4, 0] 0 0 []) = .next t) ∧
    (∃ t, exec (.jit .immediate .immediate .position) (machine [1105, 1, 4] 0 0 []) = .next t) ∧
    (∃ t, exec (.rbo .immediate .position .position) (machine [109, 19] 0 0 []) = .next t) ∧
    ∃ t, exec (.halt .position .position .position) (machine [99] 0 0 []) = .next t :=
  ⟨⟨_, rfl⟩, ⟨_, rfl⟩, ⟨_, rfl⟩, ⟨_, rfl⟩, _, rfl⟩

/-- V-RBO-1, and a call of each host operation that answers a state. -/
theorem test_wit_OnlyRboWritesBase : (∃ t, step (machine [109, 19, 99] 0 2000 []) = .next t ∧ t.rb ≠ 2000) ∧
    (∃ t, feed (-5) State.reset = .next t) ∧ (∃ t, feedText ['A'] State.reset = .next t) ∧
    (∃ t, poke 3 99 State.reset = .next t) ∧ (∃ t, construct [99] [1] = .next t) ∧
    (Instr.lt .immediate .position .position).mnemonic ≠ .rbo ∧
    (Instr.lt .immediate .position .position).modeOfSlot 1 ≠ .relative ∧
    (Instr.lt .immediate .position .position).modeOfSlot 2 ≠ .relative ∧
    (Instr.lt .immediate .position .position).modeOfSlot 3 ≠ .relative :=
  ⟨⟨_, rfl, by decide⟩, ⟨_, rfl⟩, ⟨_, rfl⟩, ⟨_, rfl⟩, ⟨_, rfl⟩, by decide⟩

/-- Two steps, an Rbo and then a Halt: `rb` goes from 3 to -4. -/
theorem test_wit_BaseIsSumOfRbo : (∃ t, Sys2Proof.core.run 2 (machine [109, -7, 99] 0 3 []) = .next t) ∧
    rboTotal 2 (machine [109, -7, 99] 0 3 []) = -7 := ⟨⟨_, rfl⟩, by decide⟩

theorem test_wit_InputQueueIsFifo : (∃ t, step (machine [3, 5, 99] 0 0 [7, 8, 9]) = .next t ∧ t.inq = [8, 9]) ∧
    (∃ t, feed 42 State.reset = .next t) ∧ (∃ t, feedText ['A', '\n'] State.reset = .next t) ∧
    (∃ t, poke 0 1 State.reset = .next t) ∧ (∃ t, construct [] [1, 2] = .next t) ∧
    (Instr.out .position .position .position).mnemonic ≠ .inp :=
  ⟨⟨_, rfl, by decide⟩, ⟨_, rfl⟩, ⟨_, rfl⟩, ⟨_, rfl⟩, ⟨_, rfl⟩, by decide⟩

/-- An Out, which advances, and a starved In, which does not. -/
theorem test_wit_SequentialFlow :
    (∃ t, step (machine [104, 5] 0 0 []) = .next t ∧ (∃ v, t.st = .suspendedOnOutput v) ∧
      decode ((machine [104, 5] 0 0 []).mem.read 0) = .legal (.out .immediate .position .position) ∧
      ¬ jumpTaken (.out .immediate .position .position) (machine [104, 5] 0 0 [])) ∧
    ∃ t, step (machine [3, 0] 0 0 []) = .next t ∧ t.st = .suspendedOnInput :=
  ⟨⟨_, rfl, ⟨5, rfl⟩, by decide, id⟩, _, rfl, rfl⟩

/-- V-JIT-8, V-JIT-5, V-JIF-5, and V-RUN-2's jump into memory never written. -/
theorem test_wit_JumpTargets :
    (decode ((machine [1105, 1, 0] 0 0 []).mem.read 0) = .legal (.jit .immediate .immediate .position) ∧
      (machine [1105, 1, 0] 0 0 []).room 2 ∧ (machine [1105, 1, 0] 0 0 []).slotAt 2 .immediate 2 ∧
      jumpTaken (.jit .immediate .immediate .position) (machine [1105, 1, 0] 0 0 []) ∧
      0 ≤ (machine [1105, 1, 0] 0 0 []).valueAt 2) ∧
    (jumpTaken (.jit .immediate .immediate .position) (machine [1105, 1, -1] 0 0 []) ∧
      (machine [1105, 1, -1] 0 0 []).valueAt 2 < 0) ∧
    (machine [1105, 1, 1000] 1000 0 []).mem.read 1000 = 0 ∧
    ¬ jumpTaken (.jif .immediate .immediate .position) (machine [1106, 1, -7] 0 0 []) := by
  refine ⟨⟨by decide, by decide, by simp only [State.slotAt]; decide, ⟨1, ?_⟩, by decide⟩, ⟨⟨1, ?_⟩, by decide⟩, by decide, ?_⟩
  · simp only [State.slotAt]; decide
  · simp only [State.slotAt]; decide
  · rintro ⟨a, ha, hz⟩
    have e : a = 1 := BitVec.eq_of_toNat_eq ha
    subst e
    exact absurd hz (by decide)

/-- V-ADD-10: the Add at 0 writes 99 over the cell at 4. An In at 0 stores 99, and one stores 0, into the cell at 2;
an Lt and an Equ store 1, the cell of an Add, into the cell at 4. -/
theorem test_wit_StoresAreSeenByTheNextFetch :
    (decode ((machine [1101, 90, 9, 4, 0] 0 0 []).mem.read 0) = .legal (.add .immediate .immediate .position) ∧
      storeAddr (.add .immediate .immediate .position) (machine [1101, 90, 9, 4, 0] 0 0 []) = some (0 + 4) ∧
      storedValue (.add .immediate .immediate .position) (machine [1101, 90, 9, 4, 0] 0 0 []) 99) ∧
    (storeAddr (.mul .immediate .immediate .position) (machine [1102, 11, 9, 4, 0] 0 0 []) = some (0 + 4) ∧
      storedValue (.mul .immediate .immediate .position) (machine [1102, 11, 9, 4, 0] 0 0 []) 99) ∧
    (storeAddr (.inp .position .position .position) (machine [3, 2] 0 0 [99, 5]) = some (0 + 2) ∧
      storedValue (.inp .position .position .position) (machine [3, 2] 0 0 [99, 5]) 99 ∧
      storedValue (.inp .position .position .position) (machine [3, 2] 0 0 [0]) 0) ∧
    (storeAddr (.lt .immediate .immediate .position) (machine [1107, 3, 8, 4] 0 0 []) = some (0 + 4) ∧
      storedValue (.lt .immediate .immediate .position) (machine [1107, 3, 8, 4] 0 0 []) 1) ∧
    (storeAddr (.equ .immediate .immediate .position) (machine [1108, 8, 8, 4] 0 0 []) = some (0 + 4) ∧
      storedValue (.equ .immediate .immediate .position) (machine [1108, 8, 8, 4] 0 0 []) 1) ∧
    (RunState.suspendedOnInput.terminal = false ∧ IsCell 99 ∧
      decode (cellOf 99) = .legal (.halt .position .position .position) ∧ decode (cellOf 0) = .illegal .badOpcode) := by
  refine ⟨⟨by decide, by decide, 1, 2, ?_⟩, ⟨by decide, 1, 2, ?_⟩, ⟨by decide, ⟨99, [5], by decide⟩, 0, [], by decide⟩,
    ⟨by decide, 1, 2, ?_⟩, ⟨by decide, 1, 2, ?_⟩, by decide⟩ <;> simp only [State.slotAt] <;> decide

/-- V-ILL-2. -/
theorem test_wit_FaultsArePrecise : ∃ t r, step State.reset = .next t ∧ t.st = .faulted r ∧ State.reset.st.isFault = false :=
  ⟨_, _, rfl, rfl, rfl⟩

/-- One step for each of the four ways. -/
theorem test_wit_WaysToLeaveRunning : (∃ t, step (machine [104, 5] 0 0 []) = .next t ∧ t.st ≠ .running) ∧
    (∃ t, step (machine [3, 0] 0 0 []) = .next t ∧ t.st ≠ .running) ∧
    (∃ t, step (machine [99] 0 0 []) = .next t ∧ t.st ≠ .running) ∧
    ∃ t, step (machine [399] 0 0 []) = .next t ∧ t.st ≠ .running :=
  ⟨⟨_, rfl, by decide⟩, ⟨_, rfl, by decide⟩, ⟨_, rfl, by decide⟩, _, rfl, by decide⟩

/-- V-RBO-5. -/
theorem test_wit_OverflowHasACause : decode ((machine [109, 1, 99] 0 maxCell []).mem.read 0)
      = .legal (.rbo .immediate .position .position) ∧
    ∃ t r, step (machine [109, 1, 99] 0 maxCell []) = .next t ∧ t.st = .faulted r ∧ r.kind = .arithmeticOverflow :=
  ⟨by decide, _, _, rfl, rfl, rfl⟩

/-- V-IN-6. -/
theorem test_wit_AddressFaultHasACause : decode ((machine [3, -1, 99] 0 0 []).mem.read 0)
      = .legal (.inp .position .position .position) ∧
    ∃ t r, step (machine [3, -1, 99] 0 0 []) = .next t ∧ t.st = .faulted r ∧ r.kind = .addressFault :=
  ⟨by decide, _, _, rfl, rfl, rfl⟩

/-- The first and the last address. -/
theorem test_wit_WriteChangesOneCell : (0 : Addr) ≠ 18446744073709551615 ∧
    ((Memory.empty.write 18446744073709551615 5).read 18446744073709551615,
      (Memory.empty.write 18446744073709551615 5).read 0) = (5, 0) := by decide

/-- Writing 0 over a cell gives back the memory without it, as data. -/
theorem test_wit_CanonicalMemoriesAreEqual : (Memory.empty.write 3 7).wf = true ∧
    ((Memory.empty.write 3 7).write 3 0).wf = true ∧ ((Memory.empty.write 3 7).write 3 0) = Memory.empty := by decide

/-- The address just below a limit, and the limit itself. -/
theorem test_wit_MemLimitRefuses : (7 : Addr).toNat < 8 ∧ 8 ≤ (8 : Addr).toNat := by decide

theorem test_wit_StepKeepsMemoryCanonical : (machine [1, 0, 0, 0, 99] 0 0 []).memCanonical ∧
    ∃ t, step (machine [1, 0, 0, 0, 99] 0 0 []) = .next t := ⟨by decide, _, rfl⟩

theorem test_wit_HostCallKeepsMemoryCanonical : (machine [99] 0 0 []).memCanonical ∧
    ∃ reply ms, hostCall 5 (.poke 0 9 1) [machine [99] 0 0 []] = some (reply, ms) := ⟨by decide, _, _, rfl⟩

/-- A state of each kind that means something: after an Out, at a starved In, on a Halt, on an illegal cell. -/
theorem test_wit_StepKeepsRunStateMeaning :
    { machine [104, 5] 2 0 [] with st := .suspendedOnOutput 5 }.stMeaning ∧
    { machine [3, 0] 0 0 [] with st := .suspendedOnInput }.stMeaning ∧
    { machine [99] 0 0 [] with st := .halted }.stMeaning ∧
    { machine [0] 0 0 [] with st := .faulted ⟨.illegalInstruction, 0, 0⟩ }.stMeaning ∧
    ∃ t, step { machine [104, 5] 2 0 [] with st := .suspendedOnOutput 5 } = .next t := by
  refine ⟨⟨by decide, .immediate, .position, .position, 1, by decide, by simp only [State.slotAt]; decide, by decide⟩,
    ⟨rfl, .position, .position, .position, by decide⟩, ⟨.position, .position, .position, by decide⟩,
    ⟨rfl, by decide, ?_⟩, _, rfl⟩
  unfold IllegalCell; decide

/-- Images and input at the limits of a cell, and one past them. -/
theorem test_wit_ConstructLoadsImage : [cellMin, cellMax].length ≤ addrMax + 1 ∧ (∀ v ∈ [cellMin, cellMax], IsCell v) ∧
    (∃ v ∈ [(99 : Int), cellMax + 1], ¬ IsCell v) ∧ [cellMin, cellMax][(1 : Addr).toNat]? = some cellMax ∧
    [cellMin, cellMax].length ≤ (2 : Addr).toNat := by decide

theorem test_wit_FeedAppends : IsCell cellMax ∧ IsCell cellMin ∧ ¬ IsCell (cellMax + 1) ∧ ¬ IsCell (cellMin - 1) := by
  decide

/-- Code points 127 and 128. -/
theorem test_wit_FeedTextAppendsAscii : (∀ c ∈ ['A', '\n', Char.ofNat 127], c.toNat ≤ 127) ∧
    ∃ c ∈ ['A', Char.ofNat 128], 127 < c.toNat :=
  ⟨by simp, Char.ofNat 128, by simp, by simp⟩

theorem test_wit_PeekAndPoke : IsCell cellMin ∧ ¬ IsCell (cellMin - 1) ∧ (1 : Addr) ≠ 0 := by decide

theorem test_wit_InstancesAreIndependent :
    (∃ reply ms, hostCall 5 (.feed 1 7) [State.reset, machine [99] 0 0 []] = some (reply, ms)) ∧
    [State.reset, machine [99] 0 0 []][0]? = some State.reset ∧ (HostCall.feed 1 7).changes ≠ some 0 ∧
    ∃ s, construct [99] [1] = .next s :=
  ⟨⟨_, _, rfl⟩, by decide, by decide, _, rfl⟩

/-- S4: the first `run` returns `Output`. -/
theorem test_wit_RunReturnsStopReason : ∃ t, runFor 3 (machine [104, 1125899906842624, 99] 0 0 [])
    = .stopped (.output 1125899906842624) t := ⟨_, rfl⟩

/-- S1: two steps, the first of which leaves the machine Running. -/
theorem test_wit_RunIsStepsUntilStopped : (∃ t, runFor 2 (machine [1, 0, 0, 0, 99] 0 0 []) = .stopped .halted t) ∧
    ∃ t, Sys2Proof.core.run 2 (machine [1, 0, 0, 0, 99] 0 0 []) = .next t ∧ t.st.stopReason = some .halted :=
  ⟨⟨_, rfl⟩, _, rfl, rfl⟩

theorem test_wit_RunOnTerminalChangesNothing : { machine [99] 0 0 [] with st := .halted }.st = .halted ∧
    { State.reset with st := .faulted ⟨.illegalInstruction, 0, 0⟩ }.st = .faulted ⟨.illegalInstruction, 0, 0⟩ := by decide

/-- S7. -/
theorem test_wit_StarvedInRetries : decode ((machine [3, 0, 4, 0, 99] 0 0 []).mem.read 0)
      = .legal (.inp .position .position .position) ∧
    (machine [3, 0, 4, 0, 99] 0 0 []).room 1 ∧ (machine [3, 0, 4, 0, 99] 0 0 []).slotAt 1 .position 0 ∧
    (machine [3, 0, 4, 0, 99] 0 0 []).inq = [] ∧ (machine [3, 0, 4, 0, 99] 0 0 []).st = .running ∧ IsCell 42 := by
  simp only [State.slotAt]; decide

end Sys2Proof.Tests
end

section
/-! Proofs for 00_scope.md: a step is never refused (O36), and MEM_LIMIT (O43). -/

namespace Sys2Proof.Machine

/-! ### Accesses under MEM_LIMIT (R7, R44) -/

/-- With no MEM_LIMIT every access is done. -/
@[simp] theorem access_none {α : Type} (a : Addr) (x : α) : access none a x = .ok x := rfl

/-- An access below the limit is done. -/
theorem access_of_lt {α : Type} {l : Nat} {a : Addr} (x : α) (h : a.toNat < l) :
    access (some l) a x = .ok x := by
  simp [access, Config.within, h]

/-- An access at or above the limit is refused. -/
theorem access_of_le {α : Type} {l : Nat} {a : Addr} (x : α) (h : l ≤ a.toNat) :
    access (some l) a x = .refuse .beyondMemLimit := by
  simp [access, Config.within, h]

/-- Settles O43: the three cases of an access, and the machine's own load and store at the default limit. -/
theorem memLimitRefuses : Obligations.MemLimitRefuses :=
  ⟨fun _ => access_none, fun _ _ _ x => ⟨access_of_lt x, access_of_le x⟩,
    fun s a v => ⟨rfl, load_eq s a, rfl, store_eq s a v⟩⟩

/-! ### No stage of a step is refused

Every stage answers a value or raises a fault; sequencing keeps that, and `settle` turns it into a next state. -/

/-- The stage answers a value or raises a fault: it is not refused. -/
def Res.NotRefused {α : Type} (x : Res α) : Prop := ∀ r, x ≠ .refuse r

@[simp] theorem Res.ok_notRefused {α : Type} (a : α) : (Res.ok a).NotRefused := nofun

@[simp] theorem Res.raise_notRefused {α : Type} (k : FaultKind) : (Res.raise k : Res α).NotRefused := nofun

/-- Two stages in sequence are not refused when neither is. -/
theorem Res.NotRefused.bind {α β : Type} {x : Res α} {f : α → Res β} (hx : x.NotRefused)
    (hf : ∀ a, (f a).NotRefused) : (x.bind f).NotRefused := by
  intro r h
  rcases Res.bind_eq_refuse.mp h with h | ⟨a, -, h⟩
  · exact hx r h
  · exact hf a r h

/-- A stage that is not refused settles in a next state. -/
theorem Res.NotRefused.settle_eq_next {x : Res State} (hx : x.NotRefused) (s : State) :
    ∃ t, settle s x = .next t := by
  cases x with
  | ok t => exact ⟨t, rfl⟩
  | raise k => exact ⟨s.takeFault k, rfl⟩
  | refuse r => exact absurd rfl (hx r)

theorem narrow_notRefused (v : Int) : (narrow v).NotRefused := by
  by_cases h : IsCell v
  · simp [narrow_of_isCell h]
  · simp [narrow_of_not_isCell h]

theorem nonNegative_notRefused (p : Cell) : (nonNegative p).NotRefused := by
  rw [nonNegative]
  split <;> simp

theorem checkWritten_notRefused (m : Mode) : (checkWritten m).NotRefused := by
  rw [checkWritten_eq]
  split <;> simp

theorem checkTop_notRefused (s : State) (n : Nat) : (checkTop s n).NotRefused := by
  rw [checkTop_eq]
  split <;> simp

/-- With the spec's default MEM_LIMIT no read is refused. -/
theorem load_notRefused (s : State) (a : Addr) : (load s a).NotRefused := by simp

/-- With the spec's default MEM_LIMIT no write is refused. -/
theorem store_notRefused (s : State) (a : Addr) (v : Cell) : (store s a v).NotRefused := by simp

theorem resolve_notRefused (s : State) (k : Nat) (m : Mode) : (resolve s k m).NotRefused := by
  rcases resolve_cases s k m with ⟨a, h⟩ | h | h <;> simp [h]

theorem resolve1_notRefused (s : State) (m1 : Mode) : (resolve1 s m1).NotRefused :=
  (checkTop_notRefused s 1).bind fun _ => resolve_notRefused s 1 m1

theorem resolve2_notRefused (s : State) (m1 m2 : Mode) : (resolve2 s m1 m2).NotRefused :=
  (checkTop_notRefused s 2).bind fun _ =>
    (resolve_notRefused s 1 m1).bind fun _ => (resolve_notRefused s 2 m2).bind fun _ => Res.ok_notRefused _

theorem resolve3_notRefused (s : State) (m1 m2 m3 : Mode) : (resolve3 s m1 m2 m3).NotRefused :=
  (checkTop_notRefused s 3).bind fun _ =>
    (resolve_notRefused s 1 m1).bind fun _ =>
      (resolve_notRefused s 2 m2).bind fun _ => (resolve_notRefused s 3 m3).bind fun _ => Res.ok_notRefused _

/-! ### Every meaning answers a next state -/

/-- An instruction that stores answers a next state when its operation is not refused. -/
theorem binaryStore_answers {f : Cell → Cell → Res Cell} (hf : ∀ x y, (f x y).NotRefused) (m1 m2 m3 : Mode)
    (s : State) : ∃ t, binaryStore f m1 m2 m3 s = .next t :=
  Res.NotRefused.settle_eq_next
    ((checkWritten_notRefused m3).bind fun _ =>
      (resolve3_notRefused s m1 m2 m3).bind fun a =>
        (load_notRefused s a.1).bind fun x =>
          (load_notRefused s a.2.1).bind fun y =>
            (hf x y).bind fun r => (store_notRefused s a.2.2 r).bind fun _ => Res.ok_notRefused _) s

theorem jumpIf_answers (cond : Cell → Bool) (m1 m2 : Mode) (s : State) :
    ∃ t, jumpIf cond m1 m2 s = .next t := by
  refine Res.NotRefused.settle_eq_next ((resolve2_notRefused s m1 m2).bind fun a =>
    (load_notRefused s a.1).bind fun x => (load_notRefused s a.2).bind fun p => ?_) s
  split
  · exact (nonNegative_notRefused p).bind fun _ => Res.ok_notRefused _
  · exact Res.ok_notRefused _

theorem execInp_answers (m1 : Mode) (s : State) : ∃ t, execInp m1 s = .next t := by
  refine Res.NotRefused.settle_eq_next ((checkWritten_notRefused m1).bind fun _ =>
    (resolve1_notRefused s m1).bind fun a => ?_) s
  split
  · exact Res.ok_notRefused _
  · next v _ _ => exact (store_notRefused s a v).bind fun _ => Res.ok_notRefused _

theorem execOut_answers (m1 : Mode) (s : State) : ∃ t, execOut m1 s = .next t :=
  Res.NotRefused.settle_eq_next
    ((resolve1_notRefused s m1).bind fun a => (load_notRefused s a).bind fun _ => Res.ok_notRefused _) s

theorem execRbo_answers (m1 : Mode) (s : State) : ∃ t, execRbo m1 s = .next t :=
  Res.NotRefused.settle_eq_next
    ((resolve1_notRefused s m1).bind fun a =>
      (load_notRefused s a).bind fun _ => (narrow_notRefused _).bind fun _ => Res.ok_notRefused _) s

/-- Every instruction term, well-formed or not, answers a next state in every state. -/
theorem exec_answers (i : Instr) (s : State) : ∃ t, exec i s = .next t := by
  cases i with
  | add m1 m2 m3 => exact binaryStore_answers (fun _ _ => narrow_notRefused _) m1 m2 m3 s
  | mul m1 m2 m3 => exact binaryStore_answers (fun _ _ => narrow_notRefused _) m1 m2 m3 s
  | inp m1 _ _ => exact execInp_answers m1 s
  | out m1 _ _ => exact execOut_answers m1 s
  | jit m1 m2 _ => exact jumpIf_answers _ m1 m2 s
  | jif m1 m2 _ => exact jumpIf_answers _ m1 m2 s
  | lt m1 m2 m3 => exact binaryStore_answers (fun _ _ => Res.ok_notRefused _) m1 m2 m3 s
  | equ m1 m2 m3 => exact binaryStore_answers (fun _ _ => Res.ok_notRefused _) m1 m2 m3 s
  | rbo m1 _ _ => exact execRbo_answers m1 s
  | halt _ _ _ => exact ⟨s.setSt .halted, rfl⟩

/-- Settles O36, by the cases of a step: terminal, illegal cell, and a decoded instruction (`exec_answers`). -/
theorem stepAlwaysAnswers : Obligations.StepAlwaysAnswers := by
  intro s
  rcases step_cases (rfl : step s = step s) with ⟨-, h⟩ | ⟨-, ⟨_, -, h⟩ | ⟨i, -, h⟩⟩
  · exact ⟨_, h⟩
  · exact ⟨_, h⟩
  · rw [h]
    exact exec_answers i _

end Sys2Proof.Machine
end

section
/-! Proofs for 10_state.md: the canonical form of memory (O42, O44, O45), what the run-state says (O46), the
relative base (O31), the input queue (O32), independence of the machines of a collection (O53), and reset (O47,
O48). -/

namespace Sys2Proof.Machine

/-! ### Legal and illegal instruction cells (R66, R67)

`decode` answers a legal instruction exactly where none of the arithmetic causes of `IllegalCell` applies. -/

theorem mnemonicOf_eq_none {n : Nat} : mnemonicOf n = none ↔ n ∉ legalOpcodes := by
  unfold mnemonicOf
  split <;> simp_all [legalOpcodes]

theorem opcode_of_mnemonicOf {n : Nat} {mn : Mnemonic} (h : mnemonicOf n = some mn) : n = mn.opcode := by
  unfold mnemonicOf at h
  split at h <;> cases h <;> rfl

theorem modeOfDigit_eq_none {d : Nat} : modeOfDigit d = none ↔ 2 < d := by
  unfold modeOfDigit
  split <;> simp_all
  omega

theorem digit_of_modeOfDigit {d : Nat} {m : Mode} (h : modeOfDigit d = some m) : d = m.digit := by
  unfold modeOfDigit at h
  split at h <;> cases h <;> rfl

theorem digit_le_two (m : Mode) : m.digit ≤ 2 := by cases m <;> decide

theorem writable_eq_false {m : Mode} : m.writable = false ↔ m.digit = 1 := by cases m <;> decide

theorem opcode_mem_legalOpcodes (mn : Mnemonic) : mn.opcode ∈ legalOpcodes := by cases mn <;> decide

/-- The ill-formed terms are those with digit 1 on slot 3 of Add, Mul, Lt, Equ or slot 1 of In (R67 (e)). -/
theorem instr_wellFormed_eq_false {mn : Mnemonic} {m1 m2 m3 : Mode} :
    (mn.instr m1 m2 m3).wellFormed = false ↔
      (mn.opcode ∈ [1, 2, 7, 8] ∧ m3.digit = 1) ∨ (mn.opcode = 3 ∧ m1.digit = 1) := by
  cases mn <;> simp [Mnemonic.instr, Instr.wellFormed, Mnemonic.opcode, writable_eq_false]

/-- Which numbers of at most five digits decode, and to what (R66). -/
theorem decodeDigits_eq_legal {n : Nat} {i : Instr} :
    decodeDigits n = .legal i ↔ ∃ mn m1 m2 m3, mnemonicOf (n % 100) = some mn ∧
      modeOfDigit (digitAt 2 n) = some m1 ∧ modeOfDigit (digitAt 3 n) = some m2 ∧
      modeOfDigit (digitAt 4 n) = some m3 ∧ (mn.instr m1 m2 m3).wellFormed = true ∧ i = mn.instr m1 m2 m3 := by
  unfold decodeDigits
  split
  · next hop => simp [hop]
  · next mn hop =>
    split
    · next m1 m2 m3 h1 h2 h3 =>
      rw [hop, h1, h2, h3]
      split
      · next hw => simpa [hw] using eq_comm
      · next hw => simp [hw]
    · next hdigits =>
      refine iff_of_false nofun ?_
      rintro ⟨_, m1, m2, m3, -, h1, h2, h3, -⟩
      exact hdigits m1 m2 m3 h1 h2 h3

/-- A cell decodes where its value has at most five digits and they decode. -/
theorem decode_eq_legal {c : Cell} {i : Instr} :
    decode c = .legal i ↔ 0 ≤ c.toInt ∧ c.toInt ≤ 99999 ∧ decodeDigits c.toNat = .legal i := by
  unfold decode
  split
  · simp; omega
  · split
    · simp; omega
    · exact ⟨fun h => ⟨by omega, by omega, h⟩, fun h => h.2.2⟩

/-- `decode` answers well-formed instructions only (R67 (e)). -/
theorem wellFormed_of_decode {c : Cell} {i : Instr} (h : decode c = .legal i) : i.wellFormed = true := by
  obtain ⟨-, -, h⟩ := decode_eq_legal.mp h
  obtain ⟨_, _, _, _, -, -, -, -, hw, rfl⟩ := decodeDigits_eq_legal.mp h
  exact hw

theorem not_illegalCell_of_decode {c : Cell} {i : Instr} (h : decode c = .legal i) : ¬ IllegalCell c := by
  obtain ⟨hlow, hhigh, h⟩ := decode_eq_legal.mp h
  obtain ⟨mn, m1, m2, m3, hop, h1, h2, h3, hw, -⟩ := decodeDigits_eq_legal.mp h
  have hwf := instr_wellFormed_eq_false.not.mp (ne_false_of_eq_true hw)
  have hop := opcode_of_mnemonicOf hop
  have h1 := digit_of_modeOfDigit h1
  have h2 := digit_of_modeOfDigit h2
  have h3 := digit_of_modeOfDigit h3
  simp only [digitAt, Nat.reducePow] at h1 h2 h3
  have hd1 := digit_le_two m1
  have hd2 := digit_le_two m2
  have hd3 := digit_le_two m3
  simp only [IllegalCell, hop, h1, h2, h3, not_or, not_not]
  exact ⟨by omega, by omega, opcode_mem_legalOpcodes mn, by omega, by omega, by omega, not_or.mp hwf⟩

theorem decode_of_not_illegalCell {c : Cell} (h : ¬ IllegalCell c) : ∃ i, decode c = .legal i := by
  simp only [IllegalCell, not_or] at h
  obtain ⟨hlow, hhigh, hop, h1, h2, h3, hw3, hw1⟩ := h
  rw [← mnemonicOf_eq_none, ← ne_eq, Option.ne_none_iff_exists'] at hop
  rw [← modeOfDigit_eq_none, ← ne_eq, Option.ne_none_iff_exists'] at h1 h2 h3
  obtain ⟨mn, hop⟩ := hop
  obtain ⟨m1, h1⟩ := h1
  obtain ⟨m2, h2⟩ := h2
  obtain ⟨m3, h3⟩ := h3
  rw [opcode_of_mnemonicOf hop, digit_of_modeOfDigit h3] at hw3
  rw [opcode_of_mnemonicOf hop, digit_of_modeOfDigit h1] at hw1
  have hwf : (mn.instr m1 m2 m3).wellFormed = true :=
    eq_true_of_ne_false (instr_wellFormed_eq_false.not.mpr (not_or.mpr ⟨hw3, hw1⟩))
  exact ⟨_, decode_eq_legal.mpr ⟨by omega, by omega,
    decodeDigits_eq_legal.mpr ⟨mn, m1, m2, m3, hop, h1, h2, h3, hwf, rfl⟩⟩⟩

/-- The causes of R67, in plain arithmetic, are those the decoder finds. -/
theorem illegalCell_iff_decode {c : Cell} : IllegalCell c ↔ ∃ cause, decode c = .illegal cause := by
  cases h : decode c with
  | illegal cause =>
    have : IllegalCell c := by
      by_contra hc
      obtain ⟨i, hi⟩ := decode_of_not_illegalCell hc
      simp [h] at hi
    simpa
  | legal i => simpa using not_illegalCell_of_decode h

/-! ### Addresses up to ADDR_MAX -/

theorem toNat_ofNat_of_le {n : Nat} (h : n ≤ addrMax) : (BitVec.ofNat 64 n).toNat = n := by
  rw [BitVec.toNat_ofNat]
  exact Nat.mod_eq_of_lt (Nat.lt_succ_of_le h)

/-- An address that stays within ADDR_MAX does not wrap. -/
theorem toNat_add_ofNat_of_le {a : Addr} {n : Nat} (h : a.toNat + n ≤ addrMax) :
    (a + BitVec.ofNat 64 n).toNat = a.toNat + n := by
  rw [BitVec.toNat_add, toNat_ofNat_of_le (by omega)]
  exact Nat.mod_eq_of_lt (Nat.lt_succ_of_le h)

/-! ### The resolver and the addresses of the spec (R84 to R89) -/

theorem nonNegative_eq_ok {p : Cell} {a : Addr} : nonNegative p = .ok a ↔ 0 ≤ p.toInt ∧ (a.toNat : Int) = p.toInt := by
  unfold nonNegative
  split
  · simp; omega
  · next h =>
    have hp := toNat_eq_toInt (c := p) (by omega)
    rw [Res.ok.injEq, ← BitVec.toNat_inj]
    omega

/-- A resolved address is the address of the spec's rules. -/
theorem resolve_eq_ok {s : State} {k : Nat} {m : Mode} {a : Addr} (hk : s.pc.toNat + k ≤ addrMax) :
    resolve s k m = .ok a ↔ s.slotAt k m a := by
  cases m with
  | position => exact nonNegative_eq_ok
  | immediate =>
    rw [resolve_immediate, Res.ok.injEq, ← BitVec.toNat_inj, slotAddr, toNat_add_ofNat_of_le hk]
    exact eq_comm
  | relative =>
    change (narrow (s.param k + s.rb.toInt)).bind nonNegative = .ok a ↔
      0 ≤ s.param k + s.rb.toInt ∧ s.param k + s.rb.toInt ≤ cellMax ∧ (a.toNat : Int) = s.param k + s.rb.toInt
    by_cases hc : IsCell (s.param k + s.rb.toInt)
    · rw [narrow_of_isCell hc, Res.ok_bind, nonNegative_eq_ok, toInt_cellOf hc]
      simp [hc.2]
    · rw [narrow_of_not_isCell hc]
      simp only [Res.raise_bind, reduceCtorEq, false_iff]
      simp only [IsCell, cellMin] at hc
      omega

/-! ### Which faults an instruction raises: a legal one never raises IllegalInstruction (R82, R190) -/

/-- The stage raises no IllegalInstruction, and a value it answers satisfies `P`. -/
def Res.LegalWith {α : Type} (P : α → Prop) : Res α → Prop
  | .ok a => P a
  | .raise k => k ≠ .illegalInstruction
  | .refuse _ => True

/-- Two stages in sequence raise no IllegalInstruction when neither does. -/
theorem Res.LegalWith.bind {α β : Type} {Q : β → Prop} {x : Res α} {f : α → Res β}
    (hx : x.LegalWith fun _ => True) (hf : ∀ a, (f a).LegalWith Q) : (x.bind f).LegalWith Q := by
  cases x with
  | ok a => exact hf a
  | raise k => exact hx
  | refuse r => trivial

theorem ok_legal {α : Type} (a : α) : (Res.ok a).LegalWith fun _ => True := trivial

theorem narrow_legal (v : Int) : (narrow v).LegalWith fun _ => True := by
  by_cases h : IsCell v
  · simp [narrow_of_isCell h, Res.LegalWith]
  · simp [narrow_of_not_isCell h, Res.LegalWith]

theorem nonNegative_legal (p : Cell) : (nonNegative p).LegalWith fun _ => True := by
  rw [nonNegative]
  split <;> simp [Res.LegalWith]

theorem checkWritten_legal {m : Mode} (h : m.writable = true) : (checkWritten m).LegalWith fun _ => True := by
  simp [checkWritten, h, Res.LegalWith]

theorem checkTop_legal (s : State) (n : Nat) : (checkTop s n).LegalWith fun _ => True := by
  rw [checkTop_eq]
  split <;> simp [Res.LegalWith]

theorem resolve_legal (s : State) (k : Nat) (m : Mode) : (resolve s k m).LegalWith fun _ => True := by
  rcases resolve_cases s k m with ⟨a, h⟩ | h | h <;> simp [h, Res.LegalWith]

theorem resolve1_legal (s : State) (m1 : Mode) : (resolve1 s m1).LegalWith fun _ => True :=
  (checkTop_legal s 1).bind fun _ => resolve_legal s 1 m1

theorem resolve2_legal (s : State) (m1 m2 : Mode) : (resolve2 s m1 m2).LegalWith fun _ => True :=
  (checkTop_legal s 2).bind fun _ =>
    (resolve_legal s 1 m1).bind fun _ => (resolve_legal s 2 m2).bind fun _ => ok_legal _

theorem resolve3_legal (s : State) (m1 m2 m3 : Mode) : (resolve3 s m1 m2 m3).LegalWith fun _ => True :=
  (checkTop_legal s 3).bind fun _ =>
    (resolve_legal s 1 m1).bind fun _ =>
      (resolve_legal s 2 m2).bind fun _ => (resolve_legal s 3 m3).bind fun _ => ok_legal _

theorem State.isFault_of_running {s : State} (hs : s.st = .running) : s.st.isFault = false := by
  rw [hs]
  rfl

/-- Stages that raise no IllegalInstruction, and whose own states are not faulted, settle in no fault state of that
kind. -/
theorem Res.LegalWith.ne_illegal_of_settle {s : State} {x : Res State} {k : FaultKind}
    (h : settle s x = .next (s.withFault k)) (hx : x.LegalWith fun t => t.st.isFault = false) :
    k ≠ .illegalInstruction := by
  rcases settle_eq_next.mp h with rfl | ⟨k', rfl, hk⟩
  · simp [Res.LegalWith, RunState.isFault] at hx
  · have : k = k' := by simpa using congrArg State.st hk
    exact this ▸ hx

theorem binaryStore_ne_illegal {f : Cell → Cell → Res Cell} {m1 m2 m3 : Mode} {s : State} {k : FaultKind}
    (hf : ∀ x y, (f x y).LegalWith fun _ => True) (hm : m3.writable = true) (hs : s.st = .running)
    (h : binaryStore f m1 m2 m3 s = .next (s.withFault k)) : k ≠ .illegalInstruction :=
  Res.LegalWith.ne_illegal_of_settle h <|
    (checkWritten_legal hm).bind fun _ =>
      (resolve3_legal s m1 m2 m3).bind fun a => (hf (s.mem.read a.1) (s.mem.read a.2.1)).bind fun _ =>
        State.isFault_of_running hs

theorem jumpIf_ne_illegal {cond : Cell → Bool} {m1 m2 : Mode} {s : State} {k : FaultKind} (hs : s.st = .running)
    (h : jumpIf cond m1 m2 s = .next (s.withFault k)) : k ≠ .illegalInstruction := by
  have hst := State.isFault_of_running hs
  refine Res.LegalWith.ne_illegal_of_settle h ((resolve2_legal s m1 m2).bind fun a => ?_)
  simp only [load_eq, Res.ok_bind]
  split
  · exact (nonNegative_legal _).bind fun _ => hst
  · exact hst

theorem execInp_ne_illegal {m1 : Mode} {s : State} {k : FaultKind} (hm : m1.writable = true)
    (hs : s.st = .running) (h : execInp m1 s = .next (s.withFault k)) : k ≠ .illegalInstruction := by
  refine Res.LegalWith.ne_illegal_of_settle h
    ((checkWritten_legal hm).bind fun _ => (resolve1_legal s m1).bind fun a => ?_)
  split
  · rfl
  · exact State.isFault_of_running hs

theorem execOut_ne_illegal {m1 : Mode} {s : State} {k : FaultKind}
    (h : execOut m1 s = .next (s.withFault k)) : k ≠ .illegalInstruction :=
  Res.LegalWith.ne_illegal_of_settle h ((resolve1_legal s m1).bind fun _ => rfl)

theorem execRbo_ne_illegal {m1 : Mode} {s : State} {k : FaultKind} (hs : s.st = .running)
    (h : execRbo m1 s = .next (s.withFault k)) : k ≠ .illegalInstruction :=
  Res.LegalWith.ne_illegal_of_settle h <|
    (resolve1_legal s m1).bind fun _ => (narrow_legal _).bind fun _ => State.isFault_of_running hs

theorem exec_ne_illegal {i : Instr} {s : State} {k : FaultKind} (hi : i.wellFormed = true) (hs : s.st = .running)
    (h : exec i s = .next (s.withFault k)) : k ≠ .illegalInstruction := by
  cases i with
  | add m1 m2 m3 => exact binaryStore_ne_illegal (fun _ _ => narrow_legal _) hi hs h
  | mul m1 m2 m3 => exact binaryStore_ne_illegal (fun _ _ => narrow_legal _) hi hs h
  | inp m1 _ _ => exact execInp_ne_illegal hi hs h
  | out m1 _ _ => exact execOut_ne_illegal h
  | jit m1 m2 _ => exact jumpIf_ne_illegal hs h
  | jif m1 m2 _ => exact jumpIf_ne_illegal hs h
  | lt m1 m2 m3 => exact binaryStore_ne_illegal (fun _ _ => ok_legal _) hi hs h
  | equ m1 m2 m3 => exact binaryStore_ne_illegal (fun _ _ => ok_legal _) hi hs h
  | rbo m1 _ _ => exact execRbo_ne_illegal hs h
  | halt _ _ _ => cases h

/-! ### What an executed instruction does (R100 to R150), said once -/

/-- The effects an instruction can have on a state: one constructor per way to complete, and a fault. -/
inductive Effect (s : State) : Instr → State → Prop
  | stores {i : Instr} (a : Addr) (v : Cell) (hi : i.mnemonic ∈ [Mnemonic.add, .mul, .lt, .equ]) :
      Effect s i ((s.setMem (s.mem.write a v)).advance 4)
  | goesTo {i : Instr} (a : Addr) (hi : i.mnemonic ∈ [Mnemonic.jit, .jif]) : Effect s i (s.setPc a)
  | starves (m1 m2 m3 : Mode) (hq : s.inq = []) : Effect s (.inp m1 m2 m3) (s.setSt .suspendedOnInput)
  | consumes (m1 m2 m3 : Mode) (a : Addr) (v : Cell) (rest : List Cell) (hq : s.inq = v :: rest) :
      Effect s (.inp m1 m2 m3) (((s.setMem (s.mem.write a v)).setInq rest).advance 2)
  | outputs (m1 m2 m3 : Mode) (a : Addr) (ha : resolve1 s m1 = .ok a) :
      Effect s (.out m1 m2 m3) ((s.advance 2).setSt (.suspendedOnOutput (s.mem.read a)))
  | movesBase (m1 m2 m3 : Mode) (r : Cell) : Effect s (.rbo m1 m2 m3) ((s.setRb r).advance 2)
  | halts (m1 m2 m3 : Mode) : Effect s (.halt m1 m2 m3) (s.setSt .halted)
  | faults {i : Instr} (k : FaultKind) (h : exec i s = .next (s.withFault k)) : Effect s i (s.withFault k)

theorem binaryStore_effect {f : Cell → Cell → Res Cell} {m1 m2 m3 : Mode} {i : Instr} {s t : State}
    (hi : i.mnemonic ∈ [Mnemonic.add, .mul, .lt, .equ]) (hx : exec i s = binaryStore f m1 m2 m3 s)
    (h : exec i s = .next t) : Effect s i t := by
  rcases binaryStore_cases (hx ▸ h) with ⟨a, r, -, -, -, rfl⟩ | ⟨k, rfl⟩
  · exact .stores a.2.2 r hi
  · exact .faults k h

theorem jumpIf_effect {cond : Cell → Bool} {m1 m2 : Mode} {i : Instr} {s t : State}
    (hi : i.mnemonic ∈ [Mnemonic.jit, .jif]) (hx : exec i s = jumpIf cond m1 m2 s)
    (h : exec i s = .next t) : Effect s i t := by
  rcases jumpIf_cases (hx ▸ h) with ⟨a, -, ⟨-, -, rfl⟩ | ⟨-, rfl⟩⟩ | ⟨k, rfl⟩
  · exact .goesTo _ hi
  · exact .goesTo (s.pc + BitVec.ofNat 64 3) hi
  · exact .faults k h

theorem exec_effect {i : Instr} {s t : State} (h : exec i s = .next t) : Effect s i t := by
  cases i with
  | add m1 m2 m3 => exact binaryStore_effect (by simp [Instr.mnemonic]) rfl h
  | mul m1 m2 m3 => exact binaryStore_effect (by simp [Instr.mnemonic]) rfl h
  | inp m1 m2 m3 =>
    rcases execInp_cases h with ⟨a, -, -, ⟨hq, rfl⟩ | ⟨v, rest, hq, rfl⟩⟩ | ⟨k, rfl⟩
    · exact .starves m1 m2 m3 hq
    · exact .consumes m1 m2 m3 a v rest hq
    · exact .faults k h
  | out m1 m2 m3 =>
    rcases execOut_cases h with ⟨a, ha, rfl⟩ | ⟨k, rfl⟩
    · exact .outputs m1 m2 m3 a ha
    · exact .faults k h
  | jit m1 m2 m3 => exact jumpIf_effect (by simp [Instr.mnemonic]) rfl h
  | jif m1 m2 m3 => exact jumpIf_effect (by simp [Instr.mnemonic]) rfl h
  | lt m1 m2 m3 => exact binaryStore_effect (by simp [Instr.mnemonic]) rfl h
  | equ m1 m2 m3 => exact binaryStore_effect (by simp [Instr.mnemonic]) rfl h
  | rbo m1 m2 m3 =>
    rcases execRbo_cases h with ⟨a, -, -, rfl⟩ | ⟨k, rfl⟩
    · exact .movesBase m1 m2 m3 _
    · exact .faults k h
  | halt m1 m2 m3 =>
    cases h
    exact .halts m1 m2 m3

/-- What a step that answers a next state does: nothing in a terminal state, IllegalInstruction on an illegal cell,
and else the effect of the decoded instruction. -/
theorem step_effect {s t : State} (h : step s = .next t) :
    (s.st.terminal = true ∧ t = s) ∨
      (∃ c, decode (s.mem.read s.pc) = .illegal c ∧ t = s.withFault .illegalInstruction) ∨
        ∃ i, decode (s.mem.read s.pc) = .legal i ∧ Effect (s.setSt .running) i t := by
  rcases step_cases h with ⟨hst, h⟩ | ⟨-, ⟨c, hc, h⟩ | ⟨i, hi, h⟩⟩
  · cases h
    exact .inl ⟨hst, rfl⟩
  · cases h
    exact .inr (.inl ⟨c, hc, rfl⟩)
  · exact .inr (.inr ⟨i, hi, exec_effect h.symm⟩)

/-! ### Every step keeps the canonical form of memory (O44) -/

theorem Effect.memCanonical {s t : State} {i : Instr} (h : Effect s i t) (hs : s.memCanonical) :
    t.memCanonical := by
  cases h with
  | stores a v => exact Memory.write_wf a v hs
  | goesTo => exact hs
  | starves => exact hs
  | consumes _ _ _ a v => exact Memory.write_wf a v hs
  | outputs => exact hs
  | movesBase => exact hs
  | halts => exact hs
  | faults => exact hs

/-- Settles O44: the cases of a step, and of the effect of the instruction (`Effect.memCanonical`). -/
theorem stepKeepsMemoryCanonical : Obligations.StepKeepsMemoryCanonical := by
  intro s t hs h
  rcases step_effect h with ⟨-, rfl⟩ | ⟨_, -, rfl⟩ | ⟨i, -, he⟩
  · exact hs
  · exact hs
  · exact he.memCanonical hs

/-! ### Every step keeps what the run-state says (O46) -/

/-- Fault `k` taken at the cell at `pc` meets the invariant if `k` is IllegalInstruction exactly on an illegal
cell. -/
theorem State.withFault_stMeaning {s : State} {k : FaultKind}
    (h : k = .illegalInstruction ↔ IllegalCell (s.mem.read s.pc)) : (s.withFault k).stMeaning :=
  ⟨rfl, rfl, h⟩

/-- An Out that completes suspends two cells further, and its operand can be read again there (R28, R111). -/
theorem State.output_stMeaning {s : State} {m1 m2 m3 : Mode} {a : Addr}
    (hd : decode (s.mem.read s.pc) = .legal (.out m1 m2 m3)) (ha : resolve1 s m1 = .ok a) :
    ((s.advance 2).setSt (.suspendedOnOutput (s.mem.read a))).stMeaning := by
  obtain ⟨hroom, ha⟩ := resolve1_eq_ok.mp ha
  have hback : (s.pc + BitVec.ofNat 64 2) - 2 = s.pc := BitVec.add_sub_cancel _ _
  have htop : (s.pc + BitVec.ofNat 64 2).toNat = s.pc.toNat + 2 := toNat_add_ofNat_of_le hroom
  have hslot : s.slotAt 1 m1 a := (resolve_eq_ok (by omega)).mp ha
  refine ⟨by rw [State.setSt_pc, State.advance_pc, htop]; omega, m1, m2, m3, a, ?_, ?_, rfl⟩
  · rw [State.setSt_pc, State.advance_pc, hback]
    exact hd
  · rw [State.setSt_pc, State.advance_pc, hback]
    exact hslot

theorem State.stMeaning_of_running {s : State} (h : s.st = .running) : s.stMeaning := by
  simp [State.stMeaning, h]

theorem Effect.stMeaning {s t : State} {i : Instr} (h : Effect s i t) (hs : s.st = .running)
    (hd : decode (s.mem.read s.pc) = .legal i) : t.stMeaning := by
  cases h with
  | stores a v => exact State.stMeaning_of_running hs
  | goesTo a => exact State.stMeaning_of_running hs
  | starves m1 m2 m3 hq => exact ⟨hq, m1, m2, m3, hd⟩
  | consumes m1 m2 m3 a v rest => exact State.stMeaning_of_running hs
  | outputs m1 m2 m3 a ha => exact State.output_stMeaning hd ha
  | movesBase m1 m2 m3 r => exact State.stMeaning_of_running hs
  | halts m1 m2 m3 => exact ⟨m1, m2, m3, hd⟩
  | faults k h =>
    have hk : k ≠ .illegalInstruction := exec_ne_illegal (wellFormed_of_decode hd) hs h
    exact State.withFault_stMeaning (iff_of_false hk (not_illegalCell_of_decode hd))

/-- Settles O46: a terminal state does not move, an illegal cell faults as such, and the effect of a legal
instruction meets the invariant from any state (`Effect.stMeaning`). -/
theorem stepKeepsRunStateMeaning : Obligations.StepKeepsRunStateMeaning := by
  intro s t hs h
  rcases step_effect h with ⟨-, rfl⟩ | ⟨c, hc, rfl⟩ | ⟨i, hi, he⟩
  · exact hs
  · exact State.withFault_stMeaning (iff_of_true rfl (illegalCell_iff_decode.mpr ⟨c, hc⟩))
  · exact he.stMeaning rfl hi

/-! ### The relative base is the sum of what Rbo added (O31) -/

theorem Effect.rb_eq {s t : State} {i : Instr} (h : Effect s i t) (hi : i.mnemonic ≠ .rbo) : t.rb = s.rb := by
  cases h with
  | movesBase => exact absurd rfl hi
  | _ => rfl

/-- Rbo with a resolved operand and a new base that is a cell (R140). -/
theorem execRbo_of_isCell {m1 : Mode} {s : State} {a : Addr} (ha : resolve1 s m1 = .ok a)
    (hc : IsCell (s.rb.toInt + s.valueAt a)) :
    execRbo m1 s = .next ((s.setRb (cellOf (s.rb.toInt + s.valueAt a))).advance 2) := by
  unfold State.valueAt at hc ⊢
  simp only [execRbo, ha, Res.ok_bind, load_eq, narrow_of_isCell hc, settle]

/-- Rbo with a resolved operand and a new base that is no cell (R140). -/
theorem execRbo_of_not_isCell {m1 : Mode} {s : State} {a : Addr} (ha : resolve1 s m1 = .ok a)
    (hc : ¬ IsCell (s.rb.toInt + s.valueAt a)) : execRbo m1 s = .next (s.withFault .arithmeticOverflow) := by
  unfold State.valueAt at hc
  simp only [execRbo, ha, Res.ok_bind, load_eq, narrow_of_not_isCell hc, Res.raise_bind, settle,
    State.takeFault_eq_withFault]

/-- Rbo with an operand that does not resolve. -/
theorem execRbo_of_raise {m1 : Mode} {s : State} {k : FaultKind} (hk : resolve1 s m1 = .raise k) :
    execRbo m1 s = .next (s.withFault k) := by
  simp only [execRbo, hk, Res.raise_bind, settle, State.takeFault_eq_withFault]

theorem State.rboAdded_of_terminal {s : State} (h : s.st.terminal = true) : s.rboAdded = 0 := by
  unfold State.rboAdded
  split <;> simp [h]

theorem State.rboAdded_of_illegal {s : State} {c : IllegalCause} (h : decode (s.mem.read s.pc) = .illegal c) :
    s.rboAdded = 0 := by
  simp [State.rboAdded, h]

theorem State.rboAdded_of_ne_rbo {s : State} {i : Instr} (h : decode (s.mem.read s.pc) = .legal i)
    (hi : i.mnemonic ≠ .rbo) : s.rboAdded = 0 := by
  simp [State.rboAdded, h, hi]

/-- A completed Rbo adds its operand exactly, and one that faults adds nothing. -/
theorem execRbo_rb {m1 m2 m3 : Mode} {s t : State} (hd : decode (s.mem.read s.pc) = .legal (.rbo m1 m2 m3))
    (hst : s.st.terminal = false) (h : execRbo m1 (s.setSt .running) = .next t) :
    t.rb.toInt = s.rb.toInt + s.rboAdded := by
  have hslot : (Instr.rbo m1 m2 m3).modeOfSlot 1 = m1 := rfl
  simp only [State.rboAdded, hd, hst, hslot, Instr.mnemonic, and_self, if_true]
  cases hr : resolve1 s m1 with
  | ok a =>
    by_cases hc : IsCell (s.rb.toInt + s.valueAt a)
    · cases (execRbo_of_isCell (s := s.setSt .running) hr hc).symm.trans h
      simp only [if_pos hc]
      exact toInt_cellOf hc
    · cases (execRbo_of_not_isCell (s := s.setSt .running) hr hc).symm.trans h
      simp [if_neg hc]
  | raise k =>
    cases (execRbo_of_raise (s := s.setSt .running) hr).symm.trans h
    simp
  | refuse r => exact absurd hr (resolve1_notRefused s m1 r)

/-- One step moves the base by what `rboAdded` says. -/
theorem step_rb {s t : State} (h : step s = .next t) : t.rb.toInt = s.rb.toInt + s.rboAdded := by
  rcases step_cases h with ⟨hst, h⟩ | ⟨hst, ⟨c, hc, h⟩ | ⟨i, hd, h⟩⟩
  · cases h
    simp [State.rboAdded_of_terminal hst]
  · cases h
    simp [State.rboAdded_of_illegal hc]
  · by_cases hi : i.mnemonic = .rbo
    · cases i <;> cases hi
      exact execRbo_rb hd hst h.symm
    · have hrb : t.rb = s.rb := (exec_effect h.symm).rb_eq hi
      simp [hrb, State.rboAdded_of_ne_rbo hd hi]

/-- A run of `n + 1` steps is one step and a run of `n` steps from where it leads. -/
theorem core_run_succ_eq_next {n : Nat} {s t : State} :
    Sys2Proof.core.run (n + 1) s = .next t ↔ ∃ u, step s = .next u ∧ Sys2Proof.core.run n u = .next t := by
  have hstep : Sys2Proof.core.step s = step s := rfl
  simp only [Host.Core.run, hstep]
  cases step s <;> simp

theorem rboTotal_succ {n : Nat} {s u : State} (h : step s = .next u) :
    rboTotal (n + 1) s = s.rboAdded + rboTotal n u := by
  simp [rboTotal, h]

/-- Settles O31, by induction on the number of steps, each of which moves the base as `step_rb` says. -/
theorem baseIsSumOfRbo : Obligations.BaseIsSumOfRbo := by
  intro n
  induction n with
  | zero =>
    intro s t h
    cases h
    simp [rboTotal]
  | succ n ih =>
    intro s t h
    obtain ⟨u, hu, ht⟩ := core_run_succ_eq_next.mp h
    rw [ih u t ht, step_rb hu, rboTotal_succ hu, add_assoc]

/-! ### What the host operations answer (R162 to R175) -/

theorem exactCell_of_isCell {v : Int} (h : IsCell v) : exactCell v = some (cellOf v) :=
  exactCell_eq_some.mpr ⟨h, rfl⟩

theorem exactCell_of_not_isCell {v : Int} (h : ¬ IsCell v) : exactCell v = none := if_neg h

theorem exactCells_eq_some {l : List Int} {cs : List Cell} :
    exactCells l = some cs ↔ (∀ v ∈ l, IsCell v) ∧ cs = l.map cellOf := by
  induction l generalizing cs with
  | nil => simp [exactCells, eq_comm]
  | cons v rest ih =>
    rw [List.forall_mem_cons, List.map_cons]
    by_cases hv : IsCell v
    · rw [and_iff_right hv]
      simp only [exactCells, exactCell_of_isCell hv]
      cases hr : exactCells rest with
      | none => exact iff_of_false nofun fun h => nomatch hr.symm.trans (ih.mpr ⟨h.1, rfl⟩)
      | some ds =>
        obtain ⟨hrest, rfl⟩ := ih.mp hr
        rw [and_iff_right hrest, Option.some_inj]
        exact eq_comm
    · simp only [exactCells, exactCell_of_not_isCell hv]
      exact iff_of_false nofun fun h => hv h.1.1

theorem feed_eq_next {v : Int} {s t : State} :
    feed v s = .next t ↔ IsCell v ∧ t = s.setInq (s.inq ++ [cellOf v]) := by
  unfold feed
  by_cases hv : IsCell v
  · rw [exactCell_of_isCell hv, and_iff_right hv, Host.Outcome.next.injEq]
    exact eq_comm
  · rw [exactCell_of_not_isCell hv]
    exact iff_of_false nofun fun h => hv h.1

theorem feedText_eq_next {text : List Char} {s t : State} :
    feedText text s = .next t ↔ ∃ q, asciiCells text = some q ∧ t = s.setInq (s.inq ++ q) := by
  unfold feedText
  cases asciiCells text <;> simp [eq_comm]

theorem poke_eq_next {a : Addr} {v : Int} {s t : State} :
    poke a v s = .next t ↔ IsCell v ∧ t = s.setMem (s.mem.write a (cellOf v)) := by
  unfold poke
  by_cases hv : IsCell v
  · rw [exactCell_of_isCell hv, and_iff_right hv]
    simp only [store_eq, settle, Host.Outcome.next.injEq]
    exact eq_comm
  · rw [exactCell_of_not_isCell hv]
    exact iff_of_false nofun fun h => hv h.1

theorem construct_eq_next {p q : List Int} {t : State} :
    construct p q = .next t ↔
      (∀ v ∈ p, IsCell v) ∧ (∀ v ∈ q, IsCell v) ∧ t = State.loaded (p.map cellOf) (q.map cellOf) := by
  constructor
  · intro h
    unfold construct at h
    split at h
    · next hp hq =>
      obtain ⟨hpc, rfl⟩ := exactCells_eq_some.mp hp
      obtain ⟨hqc, rfl⟩ := exactCells_eq_some.mp hq
      cases h
      exact ⟨hpc, hqc, rfl⟩
    · cases h
  · rintro ⟨hp, hq, rfl⟩
    simp only [construct, exactCells_eq_some.mpr ⟨hp, rfl⟩, exactCells_eq_some.mpr ⟨hq, rfl⟩]

/-! ### The input queue is FIFO (O32) -/

/-- Only an In touches the queue: it pops the front, or leaves it. -/
theorem Effect.inq_cases {s t : State} {i : Instr} (h : Effect s i t) :
    t.inq = s.inq ∨ (∃ v, s.inq = v :: t.inq) ∧ ∃ m1 m2 m3, i = .inp m1 m2 m3 := by
  cases h with
  | consumes m1 m2 m3 a v rest hq => exact .inr ⟨⟨v, hq⟩, m1, m2, m3, rfl⟩
  | _ => exact .inl rfl

theorem Res.bind_assoc {α β γ : Type} (x : Res α) (f : α → Res β) (g : β → Res γ) :
    (x.bind f).bind g = x.bind fun a => (f a).bind g := by
  cases x <;> rfl

theorem Res.ite_bind {α β : Type} (p : Prop) [Decidable p] (x y : Res α) (f : α → Res β) :
    (if p then x else y).bind f = if p then x.bind f else y.bind f :=
  apply_ite (Res.bind · f) p x y

/-- Settling commutes with a change `g` of the state that taking a fault commutes with. -/
theorem settle_map {g : State → State} (s : State) (x : Res State)
    (hg : ∀ k, (g s).takeFault k = g (s.takeFault k)) :
    settle (g s) (x.bind fun t => .ok (g t)) = Answer.mapNext g (settle s x) := by
  cases x with
  | ok t => rfl
  | raise k => exact congrArg _ (hg k)
  | refuse r => rfl

theorem binaryStore_setInq (f : Cell → Cell → Res Cell) (m1 m2 m3 : Mode) (s : State) (q : List Cell) :
    binaryStore f m1 m2 m3 (s.setInq q) = Answer.mapNext (fun t => t.setInq q) (binaryStore f m1 m2 m3 s) := by
  rw [binaryStore, binaryStore, ← settle_map s _ fun _ => rfl]
  simp only [Res.bind_assoc, Res.ok_bind, load_eq, store_eq]
  rfl

theorem jumpIf_setInq (cond : Cell → Bool) (m1 m2 : Mode) (s : State) (q : List Cell) :
    jumpIf cond m1 m2 (s.setInq q) = Answer.mapNext (fun t => t.setInq q) (jumpIf cond m1 m2 s) := by
  rw [jumpIf, jumpIf, ← settle_map s _ fun _ => rfl]
  simp only [Res.bind_assoc, Res.ok_bind, load_eq, Res.ite_bind]
  rfl

theorem execOut_setInq (m1 : Mode) (s : State) (q : List Cell) :
    execOut m1 (s.setInq q) = Answer.mapNext (fun t => t.setInq q) (execOut m1 s) := by
  rw [execOut, execOut, ← settle_map s _ fun _ => rfl]
  simp only [Res.bind_assoc, Res.ok_bind, load_eq]
  rfl

theorem execRbo_setInq (m1 : Mode) (s : State) (q : List Cell) :
    execRbo m1 (s.setInq q) = Answer.mapNext (fun t => t.setInq q) (execRbo m1 s) := by
  rw [execRbo, execRbo, ← settle_map s _ fun _ => rfl]
  simp only [Res.bind_assoc, Res.ok_bind, load_eq]
  rfl

/-- An instruction other than In does the same whatever the queue holds. -/
theorem exec_setInq {i : Instr} (s : State) (q : List Cell) (hi : i.mnemonic ≠ .inp) :
    exec i (s.setInq q) = Answer.mapNext (fun t => t.setInq q) (exec i s) := by
  cases i with
  | add m1 m2 m3 => exact binaryStore_setInq _ m1 m2 m3 s q
  | mul m1 m2 m3 => exact binaryStore_setInq _ m1 m2 m3 s q
  | inp => exact absurd rfl hi
  | out m1 _ _ => exact execOut_setInq m1 s q
  | jit m1 m2 _ => exact jumpIf_setInq _ m1 m2 s q
  | jif m1 m2 _ => exact jumpIf_setInq _ m1 m2 s q
  | lt m1 m2 m3 => exact binaryStore_setInq _ m1 m2 m3 s q
  | equ m1 m2 m3 => exact binaryStore_setInq _ m1 m2 m3 s q
  | rbo m1 _ _ => exact execRbo_setInq m1 s q
  | halt => rfl

theorem step_inq_cases {s t : State} (h : step s = .next t) :
    t.inq = s.inq ∨ (∃ v, s.inq = v :: t.inq) ∧
      ∃ m1 m2 m3, decode (s.mem.read s.pc) = .legal (.inp m1 m2 m3) := by
  rcases step_effect h with ⟨-, rfl⟩ | ⟨c, -, rfl⟩ | ⟨i, hd, he⟩
  · exact .inl rfl
  · exact .inl rfl
  · rcases he.inq_cases with hq | ⟨hq, m1, m2, m3, rfl⟩
    · exact .inl hq
    · exact .inr ⟨hq, m1, m2, m3, hd⟩

/-- Settles O32: the step by its effect, the host operations by what they answer, and `exec_setInq`. -/
theorem inputQueueIsFifo : Obligations.InputQueueIsFifo := by
  refine ⟨fun s t h => step_inq_cases h, ?feed, ?feedText, ?poke, ?construct, fun i s q hi => exec_setInq s q hi⟩
  case feed =>
    intro s t v h
    obtain ⟨-, rfl⟩ := feed_eq_next.mp h
    rfl
  case feedText =>
    intro s t text h
    obtain ⟨q, -, rfl⟩ := feedText_eq_next.mp h
    exact ⟨q, rfl⟩
  case poke =>
    intro s t a v h
    obtain ⟨-, rfl⟩ := poke_eq_next.mp h
    rfl
  case construct =>
    intro p q t h
    obtain ⟨-, -, rfl⟩ := construct_eq_next.mp h
    rfl

/-! ### Canonical memories that read the same are equal (O42) -/

theorem canonicalFrom_cons {low k : Nat} {w : Cell} {rest : List (Nat × Cell)} :
    canonicalFrom low ((k, w) :: rest) = true ↔
      low ≤ k ∧ k ≤ addrMax ∧ w ≠ 0 ∧ canonicalFrom (k + 1) rest = true := by
  simp [canonicalFrom, and_assoc]

/-- Below its first address a canonical list reads 0. -/
theorem lookupCell_of_lt {low a : Nat} {l : List (Nat × Cell)} (h : a < low) (hl : canonicalFrom low l = true) :
    lookupCell l a = 0 := by
  induction l generalizing low with
  | nil => rfl
  | cons e rest ih =>
    obtain ⟨hk, -, -, hrest⟩ := canonicalFrom_cons.mp hl
    rw [lookupCell, if_neg (by omega)]
    exact ih (by omega) hrest

theorem lookupCell_head (k : Nat) (w : Cell) (rest : List (Nat × Cell)) : lookupCell ((k, w) :: rest) k = w :=
  if_pos rfl

/-- A canonical list that reads 0 everywhere is empty. -/
theorem eq_nil_of_lookupCell {low : Nat} {l : List (Nat × Cell)} (hl : canonicalFrom low l = true)
    (h : ∀ a ≤ addrMax, lookupCell l a = 0) : l = [] := by
  cases l with
  | nil => rfl
  | cons e rest =>
    obtain ⟨-, hk, hw, -⟩ := canonicalFrom_cons.mp hl
    exact absurd ((lookupCell_head _ _ _).symm.trans (h e.1 hk)) hw

/-- The first address of one canonical list is no less than that of another that reads the same: it would read 0
there. -/
theorem head_le_of_lookupCell {low low' k k' : Nat} {w w' : Cell} {rest rest' : List (Nat × Cell)}
    (hl : canonicalFrom low ((k, w) :: rest) = true) (hl' : canonicalFrom low' ((k', w') :: rest') = true)
    (h : lookupCell ((k, w) :: rest) k = lookupCell ((k', w') :: rest') k) : k' ≤ k := by
  obtain ⟨-, -, hw, -⟩ := canonicalFrom_cons.mp hl
  obtain ⟨-, hk', hw', hrest'⟩ := canonicalFrom_cons.mp hl'
  by_contra hlt
  have hzero : lookupCell ((k', w') :: rest') k = 0 :=
    lookupCell_of_lt (low := k') (by omega) (canonicalFrom_cons.mpr ⟨le_rfl, hk', hw', hrest'⟩)
  rw [lookupCell_head, hzero] at h
  exact hw h

/-- Two canonical lists that read the same at every address are equal: they begin with the same entry, and below
their second entries the tails read 0. -/
theorem canonicalFrom_ext {low : Nat} {l l' : List (Nat × Cell)} (hl : canonicalFrom low l = true)
    (hl' : canonicalFrom low l' = true) (h : ∀ a ≤ addrMax, lookupCell l a = lookupCell l' a) : l = l' := by
  induction l generalizing low l' with
  | nil => exact (eq_nil_of_lookupCell hl' fun a ha => (h a ha).symm).symm
  | cons e rest ih =>
    cases l' with
    | nil => exact eq_nil_of_lookupCell hl h
    | cons e' rest' =>
      obtain ⟨k, w⟩ := e
      obtain ⟨k', w'⟩ := e'
      obtain ⟨-, hk, -, hrest⟩ := canonicalFrom_cons.mp hl
      obtain ⟨-, hk', -, hrest'⟩ := canonicalFrom_cons.mp hl'
      obtain rfl : k = k' :=
        Nat.le_antisymm (head_le_of_lookupCell hl' hl (h k' hk').symm) (head_le_of_lookupCell hl hl' (h k hk))
      obtain rfl : w = w' := by simpa only [lookupCell_head] using h k hk
      have htail : ∀ a ≤ addrMax, lookupCell rest a = lookupCell rest' a := by
        intro a ha
        by_cases hka : k = a
        · rw [lookupCell_of_lt (by omega) hrest, lookupCell_of_lt (by omega) hrest']
        · simpa only [lookupCell, if_neg hka] using h a ha
      rw [ih hrest hrest' htail]

/-- Settles O42: the lists of the two memories are equal (`canonicalFrom_ext`). -/
theorem canonicalMemoriesAreEqual : Obligations.CanonicalMemoriesAreEqual := by
  intro m n hm hn h
  have hcells : m.cells = n.cells := canonicalFrom_ext hm hn fun a ha => by
    simpa only [Memory.read, toNat_ofNat_of_le ha] using h (BitVec.ofNat 64 a)
  cases m
  cases n
  exact congrArg _ hcells

/-! ### What a host call does to the collection (R36, R160, R175) -/

/-- One machine acted on by a host operation that changes it. -/
inductive ActedOn (fuel : Nat) (s t : State) : Prop
  | feed (v : Int) (h : feed v s = .next t)
  | feedText (text : List Char) (h : feedText text s = .next t)
  | run (r : StopReason) (h : runFor fuel s = .stopped r t)
  | poke (a : Addr) (v : Int) (h : poke a v s = .next t)

/-- A call that writes the answer of an operation `op` back to machine `k` leaves the collection, or replaces that
one machine. -/
theorem hostCall_update_cases {fuel : Nat} {call : HostCall} {ms ms' : List State} {reply : HostReply} (k : Nat)
    (op : State → Answer)
    (hsome : ∀ s, ms[k]? = some s → hostCall fuel call ms = some (updateInstance ms k (op s)))
    (hnone : ms[k]? = none → hostCall fuel call ms = some (.noInstance, ms))
    (h : hostCall fuel call ms = some (reply, ms')) :
    ms' = ms ∨ ∃ s t, ms[k]? = some s ∧ op s = .next t ∧ ms' = ms.set k t := by
  cases hk : ms[k]? with
  | none =>
    cases (hnone hk).symm.trans h
    exact .inl rfl
  | some s =>
    have hu := Option.some_inj.mp ((hsome s hk).symm.trans h)
    cases hx : op s with
    | next t =>
      rw [hx] at hu
      cases hu
      exact .inr ⟨s, t, rfl, hx, rfl⟩
    | fault f => exact nomatch f
    | refused r =>
      rw [hx] at hu
      cases hu
      exact .inl rfl

/-- A `run` that returns leaves the collection, or replaces the machine that ran. -/
theorem hostCall_run_cases {fuel k : Nat} {ms ms' : List State} {reply : HostReply}
    (h : hostCall fuel (.run k) ms = some (reply, ms')) :
    ms' = ms ∨ ∃ s t r, ms[k]? = some s ∧ runFor fuel s = .stopped r t ∧ ms' = ms.set k t := by
  cases hk : ms[k]? with
  | none =>
    simp only [hostCall, hk] at h
    cases h
    exact .inl rfl
  | some s =>
    simp only [hostCall, hk] at h
    split at h
    · next r t hr =>
      cases h
      exact .inr ⟨s, t, r, rfl, hr, rfl⟩
    · cases h
      exact .inl rfl
    · cases h

/-- `peek` leaves the collection (R173). -/
theorem hostCall_peek_eq {fuel k : Nat} {a : Addr} {ms ms' : List State} {reply : HostReply}
    (h : hostCall fuel (.peek k a) ms = some (reply, ms')) : ms' = ms := by
  simp only [hostCall] at h
  split at h
  · split at h <;> cases h <;> rfl
  · cases h
    rfl

/-- A clone of a machine is equal to it, and the original stays as it is (R175). -/
theorem hostCall_clone {fuel k : Nat} {ms : List State} {s : State} (h : ms[k]? = some s) :
    hostCall fuel (.clone k) ms = some (.created ms.length, ms ++ [s]) := by
  have hset : ms.set k s = ms := by
    obtain ⟨hk, rfl⟩ := List.getElem?_eq_some_iff.mp h
    exact List.set_getElem_self hk
  simp only [hostCall, h, clone, hset]

/-- `construct`, where it is not refused, adds the machine it creates (R162). -/
theorem hostCall_construct {fuel : Nat} {p q : List Int} {ms : List State} {s : State}
    (h : construct p q = .next s) :
    hostCall fuel (.construct p q) ms = some (.created ms.length, ms ++ [s]) := by
  simp only [hostCall, h]

/-- Everything a host call can do: leave the collection, act on the one machine it may change, or add a machine
that `construct` makes or that is a copy of one there. -/
theorem hostCall_cases {fuel : Nat} {call : HostCall} {ms ms' : List State} {reply : HostReply}
    (h : hostCall fuel call ms = some (reply, ms')) :
    ms' = ms ∨
      (∃ k s t, call.changes = some k ∧ ms[k]? = some s ∧ ActedOn fuel s t ∧ ms' = ms.set k t) ∨
        ∃ t, (t ∈ ms ∨ ∃ p q, construct p q = .next t) ∧ ms' = ms ++ [t] := by
  cases call with
  | construct p q =>
    cases hx : construct p q with
    | next t =>
      cases (hostCall_construct hx).symm.trans h
      exact .inr (.inr ⟨t, .inr ⟨p, q, hx⟩, rfl⟩)
    | fault f => exact nomatch f
    | refused r =>
      simp only [hostCall, hx] at h
      cases h
      exact .inl rfl
  | feed k v =>
    rcases hostCall_update_cases k (feed v) (fun s hs => by simp only [hostCall, hs])
      (fun hn => by simp only [hostCall, hn]) h with hms | ⟨s, t, hs, ht, hms⟩
    · exact .inl hms
    · exact .inr (.inl ⟨k, s, t, rfl, hs, .feed v ht, hms⟩)
  | feedText k text =>
    rcases hostCall_update_cases k (feedText text) (fun s hs => by simp only [hostCall, hs])
      (fun hn => by simp only [hostCall, hn]) h with hms | ⟨s, t, hs, ht, hms⟩
    · exact .inl hms
    · exact .inr (.inl ⟨k, s, t, rfl, hs, .feedText text ht, hms⟩)
  | run k =>
    rcases hostCall_run_cases h with hms | ⟨s, t, r, hs, ht, hms⟩
    · exact .inl hms
    · exact .inr (.inl ⟨k, s, t, rfl, hs, .run r ht, hms⟩)
  | peek k a => exact .inl (hostCall_peek_eq h)
  | poke k a v =>
    rcases hostCall_update_cases k (poke a v) (fun s hs => by simp only [hostCall, hs])
      (fun hn => by simp only [hostCall, hn]) h with hms | ⟨s, t, hs, ht, hms⟩
    · exact .inl hms
    · exact .inr (.inl ⟨k, s, t, rfl, hs, .poke a v ht, hms⟩)
  | clone k =>
    cases hk : ms[k]? with
    | none =>
      simp only [hostCall, hk] at h
      cases h
      exact .inl rfl
    | some s =>
      cases (hostCall_clone hk).symm.trans h
      exact .inr (.inr ⟨s, .inl (List.mem_of_getElem? hk), rfl⟩)

/-! ### Every host call keeps the canonical form of memory (O45) -/

/-- A run that returns keeps the canonical form, as each of its steps does. -/
theorem runFor_memCanonical {n : Nat} {s t : State} {r : StopReason} (h : runFor n s = .stopped r t)
    (hs : s.memCanonical) : t.memCanonical := by
  induction n generalizing s with
  | zero => cases h
  | succ n ih =>
    obtain ⟨u, hu, ⟨-, rfl⟩ | ⟨-, ht⟩⟩ := runFor_succ_eq_stopped.mp h
    · exact stepKeepsMemoryCanonical s u hs hu
    · exact ih ht (stepKeepsMemoryCanonical s u hs hu)

theorem construct_memCanonical {p q : List Int} {t : State} (h : construct p q = .next t) : t.memCanonical := by
  obtain ⟨-, -, rfl⟩ := construct_eq_next.mp h
  exact Memory.place_wf _ 0 Memory.empty_wf

theorem ActedOn.memCanonical {fuel : Nat} {s t : State} (h : ActedOn fuel s t) (hs : s.memCanonical) :
    t.memCanonical := by
  cases h with
  | feed v h =>
    obtain ⟨-, rfl⟩ := feed_eq_next.mp h
    exact hs
  | feedText text h =>
    obtain ⟨q, -, rfl⟩ := feedText_eq_next.mp h
    exact hs
  | run r h => exact runFor_memCanonical h hs
  | poke a v h =>
    obtain ⟨-, rfl⟩ := poke_eq_next.mp h
    exact Memory.write_wf a _ hs

/-- Settles O45: by `hostCall_cases`, each machine afterwards was there before, was acted on, or is new. -/
theorem hostCallKeepsMemoryCanonical : Obligations.HostCallKeepsMemoryCanonical := by
  intro fuel call ms ms' reply h hms u hu
  rcases hostCall_cases h with rfl | ⟨k, s, t, -, hs, hact, rfl⟩ | ⟨t, ht, rfl⟩
  · exact hms u hu
  · rcases List.mem_or_eq_of_mem_set hu with hu | rfl
    · exact hms u hu
    · exact hact.memCanonical (hms s (List.mem_of_getElem? hs))
  · rcases List.mem_append.mp hu with hu | hu
    · exact hms u hu
    · obtain rfl := List.mem_singleton.mp hu
      rcases ht with ht | ⟨p, q, ht⟩
      · exact hms u ht
      · exact construct_memCanonical ht

/-! ### A host call changes no machine but its own (O53) -/

theorem hostCall_getElem?_of_ne {fuel : Nat} {call : HostCall} {ms ms' : List State} {reply : HostReply} {j : Nat}
    {s : State} (h : hostCall fuel call ms = some (reply, ms')) (hj : ms[j]? = some s)
    (hne : call.changes ≠ some j) : ms'[j]? = some s := by
  rcases hostCall_cases h with rfl | ⟨k, _, t, hk, -, -, rfl⟩ | ⟨t, -, rfl⟩
  · exact hj
  · have hkj : k ≠ j := fun hkj => hne (hkj ▸ hk)
    rw [List.getElem?_set_ne hkj, hj]
  · have hlt : j < ms.length := (List.getElem?_eq_some_iff.mp hj).1
    rw [List.getElem?_append_left hlt, hj]

/-- Settles O53: the frame of a call (`hostCall_getElem?_of_ne`), and what `clone` and `construct` add. -/
theorem instancesAreIndependent : Obligations.InstancesAreIndependent :=
  ⟨fun _ _ _ _ _ _ _ h hj hne => hostCall_getElem?_of_ne h hj hne,
    fun _ ms _ s h => ⟨ms ++ [s], hostCall_clone h, List.getElem?_concat_length, List.length_append⟩,
    fun _ _ _ _ _ h => hostCall_construct h⟩

/-! ### Reset (O47, O48) -/

/-- Settles O47: the memory of zeros is canonical, and Running says nothing about the rest of the state. -/
theorem resetMeetsInvariants : Obligations.ResetMeetsInvariants :=
  ⟨Memory.empty_wf, trivial⟩

/-- Where the machine is not stopped for good, a step at an illegal cell takes IllegalInstruction (R82). -/
theorem step_of_illegal {s : State} {c : IllegalCause} (hs : s.st.terminal = false)
    (hc : decode (s.mem.read s.pc) = .illegal c) : step s = .next (s.withFault .illegalInstruction) := by
  rcases step_cases (rfl : step s = step s) with ⟨hst, -⟩ | ⟨-, ⟨_, -, h⟩ | ⟨i, hi, -⟩⟩
  · simp [hs] at hst
  · exact h
  · simp [hc] at hi

/-- Settles O48: the first step finds the cell 0, which is illegal. -/
theorem resetState : Obligations.ResetState :=
  ⟨rfl, rfl, rfl, rfl, rfl, fun _ => rfl, step_of_illegal (c := .badOpcode) rfl (by decide)⟩

end Sys2Proof.Machine
end

section
/-! Proofs for 20_memory.md: what a write changes (O41), the cells an instruction leaves alone (O27), and the fetch
that sees a store or a poke (O35). -/

namespace Sys2Proof.Machine

/-! ### A read after a write (R41, R42)

Inserting, erasing and reading look at the first entry of an address, so that the rules hold of every list, in
canonical form or not. -/

theorem lookupCell_insertCell (a : Nat) (v : Cell) (l : List (Nat × Cell)) (b : Nat) :
    lookupCell (insertCell a v l) b = if a = b then v else lookupCell l b := by
  induction l with
  | nil => rfl
  | cons e rest ih =>
    obtain ⟨k, w⟩ := e
    simp only [insertCell]
    split
    · rfl
    · split
      · next hk =>
        subst hk
        simp only [lookupCell]
        split <;> rfl
      · next hk =>
        simp only [lookupCell, ih]
        split
        · next hkb => rw [if_neg (hkb ▸ hk)]
        · rfl

theorem lookupCell_eraseCell (a : Nat) (l : List (Nat × Cell)) (b : Nat) :
    lookupCell (eraseCell a l) b = if a = b then 0 else lookupCell l b := by
  induction l with
  | nil => simp [eraseCell, lookupCell]
  | cons e rest ih =>
    obtain ⟨k, w⟩ := e
    by_cases hk : k = a
    · have he : eraseCell a ((k, w) :: rest) = eraseCell a rest := List.filter_cons_of_neg (by simp [hk])
      rw [he, ih, lookupCell, hk]
      split <;> rfl
    · have he : eraseCell a ((k, w) :: rest) = (k, w) :: eraseCell a rest :=
        List.filter_cons_of_pos (by simpa using hk)
      rw [he, lookupCell, lookupCell, ih]
      split
      · next hkb => rw [if_neg (hkb ▸ Ne.symm hk)]
      · rfl

/-- What every address reads after a write. -/
theorem Memory.read_write (m : Memory) (a : Addr) (v : Cell) (b : Addr) :
    (m.write a v).read b = if a = b then v else m.read b := by
  simp only [Memory.read, Memory.write, ← BitVec.toNat_inj (x := a)]
  split
  · next hv => rw [lookupCell_eraseCell, hv]
  · exact lookupCell_insertCell a.toNat v m.cells b.toNat

@[simp] theorem Memory.read_write_same (m : Memory) (a : Addr) (v : Cell) : (m.write a v).read a = v := by
  rw [Memory.read_write, if_pos rfl]

theorem Memory.read_write_of_ne {m : Memory} {a b : Addr} {v : Cell} (h : a ≠ b) :
    (m.write a v).read b = m.read b := by
  rw [Memory.read_write, if_neg h]

@[simp] theorem Memory.read_empty (a : Addr) : Memory.empty.read a = 0 := rfl

/-- Settles O41: the two sides of `Memory.read_write`, and the memory of zeros. -/
theorem writeChangesOneCell : Obligations.WriteChangesOneCell :=
  ⟨fun m a v => ⟨m.read_write_same a v, fun _ hb => Memory.read_write_of_ne hb.symm⟩, Memory.read_empty⟩

/-! ### The one cell an instruction may change (R48) -/

/-- The destination of an instruction with three slots is the last of its resolved addresses. -/
theorem storeAddr_third_eq_some {x : Res (Addr × Addr × Addr)} {d : Addr} :
    storeAddr.third x = some d ↔ ∃ a1 a2, x = .ok (a1, a2, d) := by
  cases x <;> simp [storeAddr.third, Prod.ext_iff]

/-- The destination of an instruction with one slot is its resolved address. -/
theorem storeAddr_only_eq_some {x : Res Addr} {d : Addr} : storeAddr.only x = some d ↔ x = .ok d := by
  cases x <;> simp [storeAddr.only]

/-- Memory `m'` is `m`, or `m` with one write, at the address `d?` gives. -/
def Memory.WrittenAt (d? : Option Addr) (m m' : Memory) : Prop :=
  m' = m ∨ ∃ d v, d? = some d ∧ m' = m.write d v

/-- A memory with at most one write reads as before at every other address. -/
theorem Memory.WrittenAt.read_eq {d? : Option Addr} {m m' : Memory} (h : Memory.WrittenAt d? m m') {b : Addr}
    (hb : d? ≠ some b) : m'.read b = m.read b := by
  rcases h with rfl | ⟨d, v, hd, rfl⟩
  · rfl
  · exact Memory.read_write_of_ne fun hdb => hb (hdb ▸ hd)

/-- The five instructions that store nothing leave the memory as it is. -/
theorem Effect.mem_eq {s t : State} {i : Instr} (h : Effect s i t)
    (hi : i.mnemonic ∉ [Mnemonic.add, .mul, .lt, .equ, .inp]) : t.mem = s.mem := by
  cases h with
  | stores a v hi' =>
    have hmem : i.mnemonic ∈ [Mnemonic.add, .mul, .lt, .equ] ++ [.inp] := List.mem_append_left _ hi'
    exact absurd hmem hi
  | consumes => simp [Instr.mnemonic] at hi
  | _ => rfl

theorem binaryStore_writtenAt {f : Cell → Cell → Res Cell} {m1 m2 m3 : Mode} {s t : State}
    (h : binaryStore f m1 m2 m3 s = .next t) :
    Memory.WrittenAt (storeAddr.third (resolve3 s m1 m2 m3)) s.mem t.mem := by
  rcases binaryStore_cases h with ⟨a, r, -, ha, -, rfl⟩ | ⟨k, rfl⟩
  · exact .inr ⟨a.2.2, r, storeAddr_third_eq_some.mpr ⟨a.1, a.2.1, ha⟩, rfl⟩
  · exact .inl rfl

theorem execInp_writtenAt {m1 : Mode} {s t : State} (h : execInp m1 s = .next t) :
    Memory.WrittenAt (storeAddr.only (resolve1 s m1)) s.mem t.mem := by
  rcases execInp_cases h with ⟨a, -, ha, ⟨-, rfl⟩ | ⟨v, rest, -, rfl⟩⟩ | ⟨k, rfl⟩
  · exact .inl rfl
  · exact .inr ⟨a, v, storeAddr_only_eq_some.mpr ha, rfl⟩
  · exact .inl rfl

/-- An instruction writes at most one cell, the one it stores to. -/
theorem exec_writtenAt {i : Instr} {s t : State} (h : exec i s = .next t) :
    Memory.WrittenAt (storeAddr i s) s.mem t.mem := by
  cases i with
  | add | mul | lt | equ => exact binaryStore_writtenAt h
  | inp => exact execInp_writtenAt h
  | out | jit | jif | rbo | halt => exact .inl ((exec_effect h).mem_eq (by simp [Instr.mnemonic]))

/-- Settles O27: an instruction writes at most the cell it stores to (`exec_writtenAt`). -/
theorem memoryFrame : Obligations.MemoryFrame :=
  fun _ _ _ h _ hb => (exec_writtenAt h).read_eq hb

/-! ### Instructions that complete their store (R100, R101, R110, R130, R131) -/

theorem checkWritten_of_writable {m : Mode} (h : m.writable = true) : checkWritten m = .ok () := if_pos h

/-- Add, Mul, Lt and Equ with operands that resolve and a result `r`. -/
theorem binaryStore_of_slotAt {f : Cell → Cell → Res Cell} {m1 m2 m3 : Mode} {s : State} {a1 a2 d : Addr} {r : Cell}
    (hm : m3.writable = true) (hd : storeAddr.third (resolve3 s m1 m2 m3) = some d) (h1 : s.slotAt 1 m1 a1)
    (h2 : s.slotAt 2 m2 a2) (hf : f (s.mem.read a1) (s.mem.read a2) = .ok r) :
    binaryStore f m1 m2 m3 s = .next ((s.setMem (s.mem.write d r)).advance 4) := by
  obtain ⟨b1, b2, hres⟩ := storeAddr_third_eq_some.mp hd
  obtain ⟨hroom, hr1, hr2, -⟩ := resolve3_eq_ok.mp hres
  obtain rfl : a1 = b1 := by simpa [hr1, eq_comm] using (resolve_eq_ok (by omega)).mpr h1
  obtain rfl : a2 = b2 := by simpa [hr2, eq_comm] using (resolve_eq_ok (by omega)).mpr h2
  simp only [binaryStore, checkWritten_of_writable hm, hres, load_eq, hf, store_eq, Res.ok_bind, settle]

/-- An In with a destination that resolves and a queue that is not empty. -/
theorem execInp_of_inq_cons {m1 : Mode} {s : State} {d : Addr} {c : Cell} {rest : List Cell}
    (hm : m1.writable = true) (hd : storeAddr.only (resolve1 s m1) = some d) (hq : s.inq = c :: rest) :
    execInp m1 s = .next (((s.setMem (s.mem.write d c)).setInq rest).advance 2) := by
  have hres := storeAddr_only_eq_some.mp hd
  simp only [execInp, checkWritten_of_writable hm, hres, hq, store_eq, Res.ok_bind, settle]

/-- The truth value that Lt and Equ store, as a number. -/
theorem boolCell_decide (p : Prop) [Decidable p] : boolCell (decide p) = cellOf (if p then 1 else 0) := by
  by_cases h : p <;> simp [h, boolCell, cellOf]

/-- An instruction with a destination and a value to store there stores it, and goes on to the next instruction. -/
theorem exec_of_storedValue {i : Instr} {s : State} {d : Addr} {v : Int} (hw : i.wellFormed = true)
    (hd : storeAddr i s = some d) (hv : storedValue i s v) (hc : IsCell v) :
    ∃ t, exec i s = .next t ∧ t.mem = s.mem.write d (cellOf v) ∧ t.pc = s.pc + BitVec.ofNat 64 i.width ∧
      t.st = s.st := by
  cases i with
  | add m1 m2 m3 =>
    obtain ⟨a1, a2, h1, h2, rfl⟩ := hv
    exact ⟨_, binaryStore_of_slotAt hw hd h1 h2 (narrow_of_isCell hc), rfl, rfl, rfl⟩
  | mul m1 m2 m3 =>
    obtain ⟨a1, a2, h1, h2, rfl⟩ := hv
    exact ⟨_, binaryStore_of_slotAt hw hd h1 h2 (narrow_of_isCell hc), rfl, rfl, rfl⟩
  | inp m1 _ _ =>
    obtain ⟨c, rest, hq, rfl⟩ := hv
    have hcell : cellOf c.toInt = c := BitVec.ofInt_toInt
    rw [hcell]
    exact ⟨_, execInp_of_inq_cons hw hd hq, rfl, rfl, rfl⟩
  | lt m1 m2 m3 =>
    obtain ⟨a1, a2, h1, h2, rfl⟩ := hv
    exact ⟨_, binaryStore_of_slotAt hw hd h1 h2 (congrArg _ (boolCell_decide _)), rfl, rfl, rfl⟩
  | equ m1 m2 m3 =>
    obtain ⟨a1, a2, h1, h2, rfl⟩ := hv
    simp only [State.valueAt, BitVec.toInt_inj]
    exact ⟨_, binaryStore_of_slotAt hw hd h1 h2 (congrArg _ (boolCell_decide _)), rfl, rfl, rfl⟩
  | out | jit | jif | rbo | halt => exact hv.elim

/-! ### The next fetch (R52, R56) -/

/-- Where the machine is not stopped for good, a step at a legal cell executes it (R80). -/
theorem step_of_legal {s : State} {i : Instr} (hs : s.st.terminal = false)
    (hi : decode (s.mem.read s.pc) = .legal i) : step s = exec i (s.setSt .running) := by
  rcases step_cases (rfl : step s = step s) with ⟨hst, -⟩ | ⟨-, ⟨_, hc, -⟩ | ⟨j, hj, h⟩⟩
  · simp [hs] at hst
  · simp [hi] at hc
  · cases hi.symm.trans hj
    exact h

theorem State.setSt_running_of_running {s : State} (h : s.st = .running) : s.setSt .running = s :=
  h ▸ s.setSt_self

theorem State.terminal_of_running {s : State} (h : s.st = .running) : s.st.terminal = false := by
  rw [h]
  rfl

/-- A step runs the instruction that the cell at `pc` encodes, or faults on it, whatever wrote it there. -/
theorem step_of_read_pc {s : State} {c : Cell} (hs : s.st.terminal = false) (hc : s.mem.read s.pc = c) :
    (∀ j, decode c = .legal j → step s = exec j (s.setSt .running)) ∧
      ∀ cause, decode c = .illegal cause → step s = .next (s.withFault .illegalInstruction) := by
  subst hc
  exact ⟨fun _ => step_of_legal hs, fun _ => step_of_illegal hs⟩

theorem State.valueAt_of_read_eq_cellOf {s : State} {a : Addr} {v : Int} (hv : IsCell v) (h : s.mem.read a = cellOf v) :
    s.valueAt a = v := by
  rw [State.valueAt, h, toInt_cellOf hv]

/-- Settles O35: the store completes (`exec_of_storedValue`) or the poke is done, and the step after it reads the
cell at `pc` (`step_of_read_pc`). -/
theorem storesAreSeenByTheNextFetch : Obligations.StoresAreSeenByTheNextFetch := by
  constructor
  · intro s i v hs hi hd hv hc
    obtain ⟨t, ht, hmem, hpc, hst⟩ := exec_of_storedValue (wellFormed_of_decode hi) hd hv hc
    have hrun : t.st = .running := hst.trans hs
    have hread : t.mem.read t.pc = cellOf v := by rw [hmem, hpc, Memory.read_write_same]
    have hstep := step_of_read_pc (State.terminal_of_running hrun) hread
    rw [State.setSt_running_of_running hrun] at hstep
    refine ⟨t, ?_, hpc, State.valueAt_of_read_eq_cellOf hc hread, hstep⟩
    rw [step_of_legal (State.terminal_of_running hs) hi, State.setSt_running_of_running hs, ht]
  · intro s v hs hc
    have hread : (s.mem.write s.pc (cellOf v)).read s.pc = cellOf v := Memory.read_write_same ..
    exact ⟨s.setMem (s.mem.write s.pc (cellOf v)), poke_eq_next.mpr ⟨hc, rfl⟩, rfl,
      State.valueAt_of_read_eq_cellOf hc hread, step_of_read_pc hs hread⟩

end Sys2Proof.Machine
end

section
/-! Proofs for 30_encoding.md: decode and encode (O1, O2, O5), the illegal cells (O3, O14), the number of legal ones
(O4), absent slots (O6), and assembly and disassembly (O7). -/

namespace Sys2Proof.Machine

/-! ### An instruction is its mnemonic and its three modes (R61, R66) -/

@[simp] theorem mnemonic_instr (mn : Mnemonic) (m1 m2 m3 : Mode) : (mn.instr m1 m2 m3).mnemonic = mn := by
  cases mn <;> rfl

@[simp] theorem modes_instr (mn : Mnemonic) (m1 m2 m3 : Mode) : (mn.instr m1 m2 m3).modes = (m1, m2, m3) := by
  cases mn <;> rfl

theorem instr_mnemonic_modeOfSlot (i : Instr) :
    i.mnemonic.instr (i.modeOfSlot 1) (i.modeOfSlot 2) (i.modeOfSlot 3) = i := by
  cases i <;> rfl

theorem mnemonicOf_opcode (mn : Mnemonic) : mnemonicOf mn.opcode = some mn := by cases mn <;> rfl

theorem modeOfDigit_digit (m : Mode) : modeOfDigit m.digit = some m := by cases m <;> rfl

theorem opcode_bounds (mn : Mnemonic) : 1 ≤ mn.opcode ∧ mn.opcode ≤ 99 := by cases mn <;> decide

/-! ### Decode of encode (R61, R66) -/

/-- The opcode and the digits that the cell of an instruction is made of (R62, R63). -/
theorem digit_bounds (i : Instr) : (1 ≤ i.mnemonic.opcode ∧ i.mnemonic.opcode ≤ 99) ∧ (i.modeOfSlot 1).digit ≤ 2 ∧
    (i.modeOfSlot 2).digit ≤ 2 ∧ (i.modeOfSlot 3).digit ≤ 2 :=
  ⟨opcode_bounds _, digit_le_two _, digit_le_two _, digit_le_two _⟩

/-- The number that `encode` computes fits in a cell, so that nothing of it is cut off. -/
theorem toNat_encode (i : Instr) : (encode i).toNat = i.mnemonic.opcode + 100 * (i.modeOfSlot 1).digit
    + 1000 * (i.modeOfSlot 2).digit + 10000 * (i.modeOfSlot 3).digit := by
  have hdigits := digit_bounds i
  exact toNat_ofNat_of_le (by rw [addrMax]; omega)

theorem encode_bounds (i : Instr) : 1 ≤ (encode i).toInt ∧ (encode i).toInt ≤ 22299 := by
  have hdigits := digit_bounds i
  have hnat := toNat_encode i
  rw [BitVec.toInt_eq_toNat_of_lt (by omega)]
  omega

/-- A number of at most five digits with the opcode and the mode digits of an instruction decodes to it, unless the
instruction is ill-formed. -/
theorem decodeDigits_of_digits {n : Nat} {mn : Mnemonic} {m1 m2 m3 : Mode} (hop : n % 100 = mn.opcode)
    (h1 : digitAt 2 n = m1.digit) (h2 : digitAt 3 n = m2.digit) (h3 : digitAt 4 n = m3.digit) :
    decodeDigits n = if (mn.instr m1 m2 m3).wellFormed then .legal (mn.instr m1 m2 m3)
      else .illegal .immediateWritten := by
  simp only [decodeDigits, hop, h1, h2, h3, mnemonicOf_opcode, modeOfDigit_digit]

/-- Where the value of a cell lies in 0 .. 99999, its digits decide. -/
theorem decode_eq_decodeDigits {c : Cell} (hlow : 0 ≤ c.toInt) (hhigh : c.toInt ≤ 99999) :
    decode c = decodeDigits c.toNat := by
  rw [decode, if_neg (by omega), if_neg (by omega)]

/-- What the cell of any term of `Instr` decodes to: the term, or cause (e) of R67 where it is ill-formed. -/
theorem decode_encode (i : Instr) :
    decode (encode i) = if i.wellFormed then .legal i else .illegal .immediateWritten := by
  have hdigits := digit_bounds i
  obtain ⟨hlow, hhigh⟩ := encode_bounds i
  rw [decode_eq_decodeDigits (by omega) (by omega), toNat_encode,
    decodeDigits_of_digits (mn := i.mnemonic) (m1 := i.modeOfSlot 1) (m2 := i.modeOfSlot 2) (m3 := i.modeOfSlot 3),
    instr_mnemonic_modeOfSlot]
  · omega
  all_goals
    simp only [digitAt, Nat.reducePow]
    omega

/-- Settles O1: the well-formed side of `decode_encode`. -/
theorem decodeOfEncode : Obligations.DecodeOfEncode := fun i hi => by
  rw [decode_encode, if_pos hi]

/-! ### Encode of decode (R61, R66) -/

/-- The value of a legal cell is the sum of its digits. -/
theorem toNat_of_decode {c : Cell} {i : Instr} (h : decode c = .legal i) :
    c.toNat = i.mnemonic.opcode + 100 * (i.modeOfSlot 1).digit + 1000 * (i.modeOfSlot 2).digit
      + 10000 * (i.modeOfSlot 3).digit := by
  obtain ⟨hlow, hhigh, h⟩ := decode_eq_legal.mp h
  obtain ⟨mn, m1, m2, m3, hop, h1, h2, h3, -, rfl⟩ := decodeDigits_eq_legal.mp h
  have hop := opcode_of_mnemonicOf hop
  have h1 := digit_of_modeOfDigit h1
  have h2 := digit_of_modeOfDigit h2
  have h3 := digit_of_modeOfDigit h3
  have hnat := toNat_eq_toInt hlow
  simp only [digitAt, Nat.reducePow] at h1 h2 h3
  simp only [Instr.modeOfSlot, mnemonic_instr, modes_instr, reduceIte, Nat.reduceEqDiff]
  omega

theorem encode_of_decode {c : Cell} {i : Instr} (h : decode c = .legal i) : encode i = c :=
  BitVec.eq_of_toNat_eq ((toNat_encode i).trans (toNat_of_decode h).symm)

/-- Settles O2: the value of a legal cell is the number `encode` computes. -/
theorem encodeOfDecode : Obligations.EncodeOfDecode :=
  fun _ _ h => ⟨wellFormed_of_decode h, encode_of_decode h, toNat_of_decode h⟩

/-- The legal cells are the cells of the well-formed instructions. -/
theorem decode_eq_legal_iff_encode {c : Cell} {i : Instr} :
    decode c = .legal i ↔ i.wellFormed = true ∧ encode i = c :=
  ⟨fun h => ⟨wellFormed_of_decode h, encode_of_decode h⟩, fun ⟨hi, hc⟩ => hc ▸ decodeOfEncode i hi⟩

/-! ### The illegal cells (R67) -/

/-- Settles O3: the causes are those of the decoder, and a step on an illegal cell faults. -/
theorem illegalCellsExactly : Obligations.IllegalCellsExactly := by
  refine ⟨fun _ => illegalCell_iff_decode, fun s hs hc => ?_⟩
  obtain ⟨_, hd⟩ := illegalCell_iff_decode.mp hc
  exact step_of_illegal (State.terminal_of_running hs) hd

theorem checkWritten_of_not_writable {m : Mode} (h : m.writable = false) :
    checkWritten m = .raise .illegalInstruction := by
  rw [checkWritten, h, if_neg Bool.false_ne_true]

theorem binaryStore_of_not_writable {f : Cell → Cell → Res Cell} {m1 m2 m3 : Mode} {s : State}
    (h : m3.writable = false) : binaryStore f m1 m2 m3 s = .next (s.withFault .illegalInstruction) := by
  rw [binaryStore, checkWritten_of_not_writable h]
  rfl

theorem execInp_of_not_writable {m1 : Mode} {s : State} (h : m1.writable = false) :
    execInp m1 s = .next (s.withFault .illegalInstruction) := by
  rw [execInp, checkWritten_of_not_writable h]
  rfl

/-- The check of the written slot is the first stage of the five instructions that have one. -/
theorem exec_of_not_wellFormed {i : Instr} {s : State} (h : i.wellFormed = false) :
    exec i s = .next (s.withFault .illegalInstruction) := by
  cases i with
  | add => exact binaryStore_of_not_writable h
  | mul => exact binaryStore_of_not_writable h
  | lt => exact binaryStore_of_not_writable h
  | equ => exact binaryStore_of_not_writable h
  | inp => exact execInp_of_not_writable h
  | out | jit | jif | rbo | halt => cases h

/-- Settles O14: the ill-formed side of `decode_encode`, and `checkWritten` before all other stages. -/
theorem immediateWrittenSlotFaults : Obligations.ImmediateWrittenSlotFaults := fun s i hi => by
  refine ⟨?_, exec_of_not_wellFormed hi⟩
  rw [decode_encode, hi, if_neg Bool.false_ne_true]

/-! ### The number of legal cells (R70) -/

def allModes : List Mode := [.position, .immediate, .relative]

def allMnemonics : List Mnemonic := [.add, .mul, .inp, .out, .jit, .jif, .lt, .equ, .rbo, .halt]

theorem mem_allModes (m : Mode) : m ∈ allModes := by cases m <;> decide

theorem mem_allMnemonics (mn : Mnemonic) : mn ∈ allMnemonics := by cases mn <;> decide

/-- The instruction with a mnemonic and three modes, as a function of the four together. -/
def instrOf (p : Mnemonic × Mode × Mode × Mode) : Instr := p.1.instr p.2.1 p.2.2.1 p.2.2.2

theorem instrOf_injective : Function.Injective instrOf := by
  rintro ⟨mn, m1, m2, m3⟩ ⟨mn', m1', m2', m3'⟩ h
  have hmn := congrArg Instr.mnemonic h
  have hm := congrArg Instr.modes h
  simp only [instrOf, mnemonic_instr, modes_instr] at hmn hm
  rw [hmn, hm]

/-- The instructions of some mnemonics, with every mode in every slot, the ill-formed ones among them. -/
def instrsOf (mns : List Mnemonic) : List Instr := (mns ×ˢ allModes ×ˢ allModes ×ˢ allModes).map instrOf

theorem mem_instrsOf {mns : List Mnemonic} {i : Instr} : i ∈ instrsOf mns ↔ i.mnemonic ∈ mns := by
  simp only [instrsOf, List.mem_map, List.mem_product, Prod.exists, mem_allModes, and_true]
  constructor
  · rintro ⟨mn, m1, m2, m3, hmn, rfl⟩
    rwa [instrOf, mnemonic_instr]
  · exact fun h => ⟨_, _, _, _, h, instr_mnemonic_modeOfSlot i⟩

theorem nodup_instrsOf {mns : List Mnemonic} (h : mns.Nodup) : (instrsOf mns).Nodup := by
  have hm : allModes.Nodup := by decide
  exact (h.product (hm.product (hm.product hm))).map instrOf_injective

/-- The legal cells of some mnemonics. -/
def legalCells (mns : List Mnemonic) : List Cell := ((instrsOf mns).filter Instr.wellFormed).map encode

theorem mem_legalCells {mns : List Mnemonic} {c : Cell} :
    c ∈ legalCells mns ↔ ∃ i, decode c = .legal i ∧ i.mnemonic ∈ mns := by
  simp only [legalCells, List.mem_map, List.mem_filter, mem_instrsOf, decode_eq_legal_iff_encode]
  exact exists_congr fun _ => and_assoc.trans and_comm

/-- Well-formed instructions have different cells, for each is read back from its own. -/
theorem encode_inj_of_wellFormed {i j : Instr} (hi : i.wellFormed = true) (hj : j.wellFormed = true)
    (h : encode i = encode j) : i = j :=
  Decoded.legal.inj ((decodeOfEncode i hi).symm.trans (h ▸ decodeOfEncode j hj))

theorem nodup_legalCells {mns : List Mnemonic} (h : mns.Nodup) : (legalCells mns).Nodup :=
  ((nodup_instrsOf h).filter Instr.wellFormed).map_on fun _ hi _ hj =>
    encode_inj_of_wellFormed (List.of_mem_filter hi) (List.of_mem_filter hj)

theorem length_legalCells_singleton (mn : Mnemonic) : (legalCells [mn]).length = legalCellCount mn := by
  cases mn <;> rfl

/-- Settles O4: `legalCells` lists them, for one mnemonic and for all ten. -/
theorem legalCellCounts : Obligations.LegalCellCounts := by
  refine ⟨fun mn => ⟨legalCells [mn], nodup_legalCells (List.nodup_singleton mn), length_legalCells_singleton mn,
    fun c => ?_⟩, ⟨legalCells allMnemonics, nodup_legalCells (by decide), rfl, fun c => ?_⟩, fun c i h => ?_⟩
  · simp only [mem_legalCells, List.mem_singleton]
  · simp only [mem_legalCells, mem_allMnemonics, and_true]
  · exact encode_of_decode h ▸ encode_bounds i

/-! ### Assembly and disassembly (R74, R75) -/

/-- The instruction that assembly forms of a mnemonic and operands. -/
def asmInstr (mn : Mnemonic) (ops : List Operand) : Instr :=
  mn.instr (slotMode ops 0) (slotMode ops 1) (slotMode ops 2)

theorem assemble_eq_some {mn : Mnemonic} {ops : List Operand} {cells : List Cell} :
    assemble mn ops = some cells ↔ ops.length = mn.nparams ∧ (asmInstr mn ops).wellFormed = true ∧
      cells = encode (asmInstr mn ops) :: ops.map Operand.param := by
  simp only [assemble, asmInstr, Option.ite_none_right_eq_some, Option.some.injEq, and_assoc, eq_comm (a := cells)]

theorem modeOfSlot_asmInstr (mn : Mnemonic) (ops : List Operand) {k : Nat} (hk : k < 3) :
    (asmInstr mn ops).modeOfSlot (k + 1) = slotMode ops k := by
  simp only [asmInstr, Instr.modeOfSlot, modes_instr]
  interval_cases k <;> rfl

theorem slotMode_of_length_le {ops : List Operand} {k : Nat} (h : ops.length ≤ k) : slotMode ops k = .position := by
  rw [slotMode, List.getElem?_eq_none h]

theorem slotMode_of_lt {ops : List Operand} {k : Nat} (h : k < ops.length) : slotMode ops k = ops[k].mode := by
  rw [slotMode, List.getElem?_eq_getElem h]

theorem nparams_le_three (mn : Mnemonic) : mn.nparams ≤ 3 := by cases mn <;> decide

theorem operandOf_mode_param (o : Operand) : Operand.of o.mode o.param = o := by cases o <;> rfl

/-- Operands are read back from their parameter cells where the slots of the instruction have their modes. -/
theorem operandsFrom_map_param (i : Instr) (ops : List Operand) (k : Nat)
    (h : ∀ j (hj : j < ops.length), i.modeOfSlot (k + j) = ops[j].mode) :
    operandsFrom i k (ops.map Operand.param) = ops := by
  induction ops generalizing k with
  | nil => rfl
  | cons o ops ih =>
    have hhead : i.modeOfSlot k = o.mode := h 0 (Nat.zero_lt_succ _)
    have htail := ih (k + 1) fun j hj => by
      rw [Nat.add_assoc, Nat.add_comm 1 j]
      exact h (j + 1) (Nat.succ_lt_succ hj)
    rw [List.map_cons, operandsFrom, hhead, operandOf_mode_param, htail]

theorem operandsFrom_asmInstr {mn : Mnemonic} {ops : List Operand} (h : ops.length = mn.nparams) :
    operandsFrom (asmInstr mn ops) 1 (ops.map Operand.param) = ops := by
  refine operandsFrom_map_param _ ops 1 fun j hj => ?_
  have hj3 : j < 3 := hj.trans_le (h.trans_le (nparams_le_three mn))
  rw [Nat.add_comm, modeOfSlot_asmInstr mn ops hj3, slotMode_of_lt hj]

/-- Settles O7: the first cell decodes to the instruction it was made of, and its operands are read back from the
parameter cells. -/
theorem disassembleOfAssemble : Obligations.DisassembleOfAssemble := by
  intro mn ops cells rest h
  obtain ⟨hlen, hwf, rfl⟩ := assemble_eq_some.mp h
  have hn : (asmInstr mn ops).nparams = (ops.map Operand.param).length := by
    rw [List.length_map, hlen, Instr.nparams, asmInstr, mnemonic_instr]
  simp only [disassemble, List.cons_append, decodeOfEncode _ hwf, hn, List.take_left, List.drop_left,
    operandsFrom_asmInstr hlen, List.length_append, Nat.le_add_right, reduceIte]
  rw [asmInstr, mnemonic_instr]

/-! ### Samples, and absent slots (R61 to R63, R67, R68) -/

/-- Settles O5: the decoder runs on the fifteen cells. -/
theorem decodeSampleCells : Obligations.DecodeSampleCells := by
  unfold Obligations.DecodeSampleCells
  decide

/-- A mode digit above 2, in any position, is cause (d) of R67 whatever the opcode is. -/
theorem decode_of_two_lt_digit {c : Cell} {mn : Mnemonic} {k : Nat} (hlow : 0 ≤ c.toInt) (hhigh : c.toInt ≤ 99999)
    (hop : c.toNat % 100 = mn.opcode) (hk : k = 2 ∨ k = 3 ∨ k = 4) (hd : 2 < digitAt k c.toNat) :
    decode c = .illegal .badModeDigit := by
  have hnone := modeOfDigit_eq_none.mpr hd
  simp only [decode_eq_decodeDigits hlow hhigh, decodeDigits, hop, mnemonicOf_opcode]
  split
  · next h2 h3 h4 =>
    rcases hk with rfl | rfl | rfl
    · cases hnone.symm.trans h2
    · cases hnone.symm.trans h3
    · cases hnone.symm.trans h4
  · rfl

/-- The assembler leaves mode digit 0 in the slots that the opcode lacks (R74). -/
theorem modeOfSlot_asmInstr_absent {mn : Mnemonic} {ops : List Operand} {k : Nat} (hlen : ops.length = mn.nparams)
    (hk : mn.nparams < k) (hk3 : k ≤ 3) : (asmInstr mn ops).modeOfSlot k = .position := by
  obtain ⟨j, rfl⟩ := Nat.exists_eq_add_one_of_ne_zero (Nat.ne_zero_of_lt hk)
  rw [modeOfSlot_asmInstr mn ops hk3, slotMode_of_length_le (by omega)]

/-- Settles O6: the dispatch does not look at the digits of absent slots, the decoder keeps those up to 2
(`decodeOfEncode`) and refuses the others (`decode_of_two_lt_digit`), and the assembler writes 0 there. -/
theorem absentSlotDigitsIgnored : Obligations.AbsentSlotDigitsIgnored := by
  refine ⟨fun _ _ _ _ _ _ _ => ⟨rfl, rfl, rfl, rfl, rfl, rfl⟩, fun m1 m2 m3 => ?_, by decide, by decide, by decide,
    by decide, by decide, by decide, by decide, fun c mn k hlow hhigh hop hk hk3 hd => ?_, fun mn ops cells h => ?_⟩
  · refine ⟨fun hm => decodeOfEncode (.inp m1 m2 m3) ?_, decodeOfEncode _ rfl, decodeOfEncode _ rfl,
      decodeOfEncode _ rfl, decodeOfEncode _ rfl, decodeOfEncode _ rfl⟩
    cases m1 with
    | immediate => exact absurd rfl hm
    | position | relative => rfl
  · exact decode_of_two_lt_digit hlow hhigh hop (by omega) hd
  · obtain ⟨hlen, -, rfl⟩ := assemble_eq_some.mp h
    exact ⟨asmInstr mn ops, rfl, mnemonic_instr .., fun k => modeOfSlot_asmInstr_absent hlen⟩

end Sys2Proof.Machine
end

section
/-! Proofs for 40_fetch_decode_resolve.md: the step of a decoded instruction (O8), the top of the address space
(O10), and the resolver: its answers (O11), their ranges (O12), and the first slot that faults (O13). -/

namespace Sys2Proof.Machine

/-! ### A step from Running (R80, R81) -/

/-- Settles O8: a Running state resumes as it is. -/
theorem stepRunsDecoded : Obligations.StepRunsDecoded := by
  intro s i hs hi
  rw [step_of_legal (State.terminal_of_running hs) hi, State.setSt_running_of_running hs]

/-! ### The answers of the resolver (R85 to R93) -/

theorem narrow_eq_raise {v : Int} {kind : FaultKind} :
    narrow v = .raise kind ↔ kind = .arithmeticOverflow ∧ ¬ IsCell v := by
  by_cases hc : IsCell v
  · simp [narrow_of_isCell hc, hc]
  · simp [narrow_of_not_isCell hc, hc, eq_comm]

theorem nonNegative_eq_raise {p : Cell} {kind : FaultKind} :
    nonNegative p = .raise kind ↔ kind = .addressFault ∧ p.toInt < 0 := by
  unfold nonNegative
  split
  · next hneg => simp [hneg, eq_comm]
  · next hneg => simp [hneg]

/-- The resolver faults exactly as the spec's rules say, and in no other way: a Relative sum that is no cell overflows
before its sign is looked at (R89). -/
theorem resolve_eq_raise {s : State} {k : Nat} {m : Mode} {kind : FaultKind} :
    resolve s k m = .raise kind ↔
      (kind = .arithmeticOverflow ∧ s.sumOverflows k m) ∨ (kind = .addressFault ∧ s.addressNegative k m) := by
  cases m with
  | position =>
    have hneg : resolve s k .position = .raise kind ↔ kind = .addressFault ∧ s.param k < 0 := nonNegative_eq_raise
    simpa [State.sumOverflows, State.addressNegative] using hneg
  | immediate => simp [resolve_immediate, State.sumOverflows, State.addressNegative]
  | relative =>
    have hsum : resolve s k .relative = (narrow (s.param k + s.rb.toInt)).bind nonNegative := rfl
    by_cases hc : IsCell (s.param k + s.rb.toInt)
    · rw [hsum, narrow_of_isCell hc, Res.ok_bind, nonNegative_eq_raise, toInt_cellOf hc]
      simp [State.sumOverflows, State.addressNegative, IsCell, hc]
    · rw [hsum, narrow_of_not_isCell hc, Res.raise_bind]
      simp [State.sumOverflows, State.addressNegative, hc, eq_comm]

/-- Settles O11: what the resolver answers (`resolve_eq_ok`), how it faults (`resolve_eq_raise`), and that it is not
refused. -/
theorem resolveAsSpecified : Obligations.ResolveAsSpecified := by
  intro s k m _ _ hk
  refine ⟨fun a => resolve_eq_ok hk, ?_, ?_, ?_, resolve_notRefused s k m⟩
  all_goals simp [resolve_eq_raise]

/-! ### The ranges of resolved addresses (R94) -/

/-- The addresses of the modes that look at a parameter are values of cells. -/
theorem State.slotAt_le_cellMax {s : State} {k : Nat} {m : Mode} {a : Addr} (h : s.slotAt k m a)
    (hm : m ≠ .immediate) : (a.toNat : Int) ≤ cellMax := by
  cases m with
  | position =>
    obtain ⟨-, ha⟩ := h
    exact ha.trans_le (isCell_toInt _).2
  | immediate => exact absurd rfl hm
  | relative =>
    obtain ⟨-, hmax, ha⟩ := h
    exact ha.trans_le hmax

/-- With base 0 the exact sum is the parameter itself. -/
theorem resolve_relative_of_rb_eq_zero {s : State} (h : s.rb = 0) (k : Nat) :
    resolve s k .relative = resolve s k .position := by
  have hself : cellOf (s.mem.read (slotAddr s k)).toInt = s.mem.read (slotAddr s k) := BitVec.ofInt_toInt
  have hrb : s.rb.toInt = 0 := by rw [h]; rfl
  rw [resolve_relative, resolve_position, hrb, add_zero, narrow_of_isCell (isCell_toInt _), hself, Res.ok_bind]

/-- Settles O12: the range of each mode, and the sum with base 0. -/
theorem resolvedAddressRanges : Obligations.ResolvedAddressRanges := by
  intro s k m hlow _ hroom
  have hk : s.pc.toNat + k ≤ addrMax := by omega
  refine ⟨fun a ha hm => State.slotAt_le_cellMax ((resolve_eq_ok hk).mp ha) hm, fun a ha => ?_,
    fun hrb => resolve_relative_of_rb_eq_zero hrb k⟩
  have haddr : a.toNat = s.pc.toNat + k := (resolve_eq_ok hk).mp ha
  omega

/-! ### A fault before Execute (R83, R90)

Every instruction but Halt checks the top of the address space and resolves all its slots before it does anything
else, so that a fault there is all it does. -/

/-- The stage that resolves all slots of an instruction raises a fault; Halt has no such stage. -/
def OperandsRaise (i : Instr) (s : State) (kind : FaultKind) : Prop :=
  match i.nparams with
  | 1 => resolve1 s (i.modeOfSlot 1) = .raise kind
  | 2 => resolve2 s (i.modeOfSlot 1) (i.modeOfSlot 2) = .raise kind
  | 3 => resolve3 s (i.modeOfSlot 1) (i.modeOfSlot 2) (i.modeOfSlot 3) = .raise kind
  | _ => False

theorem binaryStore_of_raise {f : Cell → Cell → Res Cell} {m1 m2 m3 : Mode} {s : State} {kind : FaultKind}
    (hm : m3.writable = true) (h : resolve3 s m1 m2 m3 = .raise kind) :
    binaryStore f m1 m2 m3 s = .next (s.withFault kind) := by
  rw [binaryStore, checkWritten_of_writable hm, Res.ok_bind, h]
  rfl

theorem jumpIf_of_raise {cond : Cell → Bool} {m1 m2 : Mode} {s : State} {kind : FaultKind}
    (h : resolve2 s m1 m2 = .raise kind) : jumpIf cond m1 m2 s = .next (s.withFault kind) := by
  rw [jumpIf, h]
  rfl

theorem execInp_of_raise {m1 : Mode} {s : State} {kind : FaultKind} (hm : m1.writable = true)
    (h : resolve1 s m1 = .raise kind) : execInp m1 s = .next (s.withFault kind) := by
  rw [execInp, checkWritten_of_writable hm, Res.ok_bind, h]
  rfl

theorem execOut_of_raise {m1 : Mode} {s : State} {kind : FaultKind} (h : resolve1 s m1 = .raise kind) :
    execOut m1 s = .next (s.withFault kind) := by
  rw [execOut, h]
  rfl

/-- A fault of the operands is taken, with no other effect, whatever the instruction does with them. -/
theorem exec_of_operandsRaise {i : Instr} {s : State} {kind : FaultKind} (hw : i.wellFormed = true)
    (h : OperandsRaise i s kind) : exec i s = .next (s.withFault kind) := by
  cases i with
  | add | mul | lt | equ => exact binaryStore_of_raise hw h
  | inp => exact execInp_of_raise hw h
  | out => exact execOut_of_raise h
  | jit | jif => exact jumpIf_of_raise h
  | rbo => exact execRbo_of_raise h
  | halt => exact h.elim

/-! ### The top of the address space (R83) -/

theorem nparams_eq_zero {mn : Mnemonic} : mn.nparams = 0 ↔ mn = .halt := by cases mn <;> decide

/-- The numbers of parameters of an instruction that has some. -/
theorem nparams_cases {i : Instr} (h : i.nparams ≠ 0) : i.nparams = 1 ∨ i.nparams = 2 ∨ i.nparams = 3 := by
  have hle : i.nparams ≤ 3 := nparams_le_three i.mnemonic
  omega

/-- Where the successor address is past ADDR_MAX, the check raises before any slot is resolved. -/
theorem operandsRaise_of_not_room {i : Instr} {s : State} (hi : i.mnemonic ≠ .halt) (h : ¬ s.room i.nparams) :
    OperandsRaise i s .addressFault := by
  have htop : checkTop s i.nparams = .raise .addressFault := by rw [checkTop_eq, if_neg h]
  rcases nparams_cases (nparams_eq_zero.not.mpr hi) with hn | hn | hn
  · simp only [OperandsRaise, hn, resolve1, hn ▸ htop, Res.raise_bind]
  · simp only [OperandsRaise, hn, resolve2, hn ▸ htop, Res.raise_bind]
  · simp only [OperandsRaise, hn, resolve3, hn ▸ htop, Res.raise_bind]

/-- Settles O10: above the top the operands fault (`operandsRaise_of_not_room`), and Halt has none. -/
theorem topOfSpaceFaults : Obligations.TopOfSpaceFaults := by
  intro s i hs hi
  rw [stepRunsDecoded s i hs hi]
  constructor
  · intro hhalt htop
    exact exec_of_operandsRaise (wellFormed_of_decode hi) (operandsRaise_of_not_room hhalt (by omega))
  · intro hhalt
    cases i <;> cases hhalt
    rfl

/-! ### The first slot that faults (R90) -/

/-- Slot `k` is the first that does not resolve, and raises a fault. -/
structure FirstRaise (s : State) (mode : Nat → Mode) (k : Nat) (kind : FaultKind) : Prop where
  pos : 1 ≤ k
  before : ∀ j, 1 ≤ j → j < k → ∃ a, resolve s j (mode j) = .ok a
  raises : resolve s k (mode k) = .raise kind

theorem resolve1_of_firstRaise {s : State} {mode : Nat → Mode} {k : Nat} {kind : FaultKind} (hroom : s.room 1)
    (hk : k ≤ 1) (h : FirstRaise s mode k kind) : resolve1 s (mode 1) = .raise kind := by
  obtain ⟨hpos, -, hraise⟩ := h
  obtain rfl : k = 1 := by omega
  rw [resolve1, checkTop_eq, if_pos hroom, Res.ok_bind, hraise]

theorem resolve2_of_firstRaise {s : State} {mode : Nat → Mode} {k : Nat} {kind : FaultKind} (hroom : s.room 2)
    (hk : k ≤ 2) (h : FirstRaise s mode k kind) : resolve2 s (mode 1) (mode 2) = .raise kind := by
  obtain ⟨hpos, hbefore, hraise⟩ := h
  rw [resolve2, checkTop_eq, if_pos hroom, Res.ok_bind]
  obtain rfl | rfl : k = 1 ∨ k = 2 := by omega
  · rw [hraise, Res.raise_bind]
  · obtain ⟨a1, h1⟩ := hbefore 1 le_rfl (by omega)
    rw [h1, Res.ok_bind, hraise, Res.raise_bind]

theorem resolve3_of_firstRaise {s : State} {mode : Nat → Mode} {k : Nat} {kind : FaultKind} (hroom : s.room 3)
    (hk : k ≤ 3) (h : FirstRaise s mode k kind) : resolve3 s (mode 1) (mode 2) (mode 3) = .raise kind := by
  obtain ⟨hpos, hbefore, hraise⟩ := h
  rw [resolve3, checkTop_eq, if_pos hroom, Res.ok_bind]
  obtain rfl | rfl | rfl : k = 1 ∨ k = 2 ∨ k = 3 := by omega
  · rw [hraise, Res.raise_bind]
  · obtain ⟨a1, h1⟩ := hbefore 1 le_rfl (by omega)
    rw [h1, Res.ok_bind, hraise, Res.raise_bind]
  · obtain ⟨a1, h1⟩ := hbefore 1 le_rfl (by omega)
    obtain ⟨a2, h2⟩ := hbefore 2 (by omega) (by omega)
    rw [h1, Res.ok_bind, h2, Res.ok_bind, hraise, Res.raise_bind]

/-- With room, the first slot that faults decides the fault of the operands. -/
theorem operandsRaise_of_firstRaise {i : Instr} {s : State} {k : Nat} {kind : FaultKind} (hroom : s.room i.nparams)
    (hk : k ≤ i.nparams) (h : FirstRaise s i.modeOfSlot k kind) : OperandsRaise i s kind := by
  have hpos := h.pos
  rcases nparams_cases (i := i) (by omega) with hn | hn | hn
  · simp only [OperandsRaise, hn, resolve1_of_firstRaise (hn ▸ hroom) (hn ▸ hk) h]
  · simp only [OperandsRaise, hn, resolve2_of_firstRaise (hn ▸ hroom) (hn ▸ hk) h]
  · simp only [OperandsRaise, hn, resolve3_of_firstRaise (hn ▸ hroom) (hn ▸ hk) h]

/-- Settles O13: by the answers of the resolver the slot is the first that faults, so the operands fault
(`operandsRaise_of_firstRaise`), and that ends the instruction (`exec_of_operandsRaise`). -/
theorem firstFaultingSlotWins : Obligations.FirstFaultingSlotWins := by
  intro s i k kind hw hroom hpos hk hbefore hraise
  have hfirst : FirstRaise s i.modeOfSlot k kind :=
    { pos := hpos
      before := fun j hj hjk => by
        obtain ⟨a, ha⟩ := hbefore j hj hjk
        exact ⟨a, (resolve_eq_ok (by omega)).mpr ha⟩
      raises := resolve_eq_raise.mpr hraise }
  exact exec_of_operandsRaise hw (operandsRaise_of_firstRaise hroom hk hfirst)

end Sys2Proof.Machine
end

section
/-! Proofs for 41_arithmetic.md: Add and Mul (O15, O16), overflow (O25), operands on which they cannot overflow (O26),
and what Add, Mul, Lt and Equ leave alone (O28). -/

namespace Sys2Proof.Machine

/-! ### The cell of an instruction (R60, R61, R67) -/

/-- Every instruction has the opcode and the width of its mnemonic. -/
theorem encodedAs_opcode_width (i : Instr) : EncodedAs i i.mnemonic.opcode i.width := ⟨toNat_encode i, rfl⟩

theorem decode_encode_of_not_wellFormed {i : Instr} (h : i.wellFormed = false) :
    decode (encode i) = .illegal .immediateWritten := by
  rw [decode_encode, h, if_neg Bool.false_ne_true]

theorem writable_of_ne_immediate {m : Mode} (h : m ≠ .immediate) : m.writable = true := by
  cases m with
  | immediate => exact absurd rfl h
  | position | relative => rfl

/-! ### An exact result is stored or overflows (R100, R101, R103) -/

theorem resolve1_of_slotAt {s : State} {m1 : Mode} {a1 : Addr} (hroom : s.room 1) (h1 : s.slotAt 1 m1 a1) :
    resolve1 s m1 = .ok a1 :=
  resolve1_eq_ok.mpr ⟨hroom, (resolve_eq_ok (by omega)).mpr h1⟩

theorem resolve3_of_slotAt {s : State} {m1 m2 m3 : Mode} {a1 a2 a3 : Addr} (hroom : s.room 3)
    (h1 : s.slotAt 1 m1 a1) (h2 : s.slotAt 2 m2 a2) (h3 : s.slotAt 3 m3 a3) :
    resolve3 s m1 m2 m3 = .ok (a1, a2, a3) :=
  resolve3_eq_ok.mpr ⟨hroom, (resolve_eq_ok (by omega)).mpr h1, (resolve_eq_ok (by omega)).mpr h2,
    (resolve_eq_ok (by omega)).mpr h3⟩

/-- A fault of the result, after all slots have resolved, is all that the instruction does. -/
theorem binaryStore_of_result_raise {f : Cell → Cell → Res Cell} {m1 m2 m3 : Mode} {s : State} {a1 a2 a3 : Addr}
    {kind : FaultKind} (hm : m3.writable = true) (ha : resolve3 s m1 m2 m3 = .ok (a1, a2, a3))
    (hf : f (s.mem.read a1) (s.mem.read a2) = .raise kind) :
    binaryStore f m1 m2 m3 s = .next (s.withFault kind) := by
  simp only [binaryStore, checkWritten_of_writable hm, ha, load_eq, Res.ok_bind, hf, Res.raise_bind, settle,
    State.takeFault_eq_withFault]

/-- An instruction that computes an exact value `g` of its two sources stores its cell, or takes ArithmeticOverflow
where it has none. -/
theorem binaryStore_narrow {g : Cell → Cell → Int} {m1 m2 m3 : Mode} {s : State} {a1 a2 a3 : Addr}
    (hm : m3.writable = true) (hroom : s.room 3) (h1 : s.slotAt 1 m1 a1) (h2 : s.slotAt 2 m2 a2)
    (h3 : s.slotAt 3 m3 a3) :
    (IsCell (g (s.mem.read a1) (s.mem.read a2)) →
      binaryStore (fun x y => narrow (g x y)) m1 m2 m3 s =
        .next ((s.setMem (s.mem.write a3 (cellOf (g (s.mem.read a1) (s.mem.read a2))))).advance 4)) ∧
    (¬ IsCell (g (s.mem.read a1) (s.mem.read a2)) →
      binaryStore (fun x y => narrow (g x y)) m1 m2 m3 s = .next (s.withFault .arithmeticOverflow)) := by
  have ha := resolve3_of_slotAt hroom h1 h2 h3
  constructor
  · intro hc
    exact binaryStore_of_slotAt hm (storeAddr_third_eq_some.mpr ⟨a1, a2, ha⟩) h1 h2 (narrow_of_isCell hc)
  · intro hc
    exact binaryStore_of_result_raise hm ha (narrow_of_not_isCell hc)

/-- Settles O15: `binaryStore_narrow` at the exact sum. -/
theorem addStoresExactSum : Obligations.AddStoresExactSum := by
  intro m1 m2 m3
  refine ⟨encodedAs_opcode_width _, ?_, fun s a1 a2 a3 hm => ?_⟩
  · rintro rfl
    exact decode_encode_of_not_wellFormed rfl
  · exact binaryStore_narrow (g := fun x y => x.toInt + y.toInt) (writable_of_ne_immediate hm)

/-- Settles O16: `binaryStore_narrow` at the exact product. -/
theorem mulStoresExactProduct : Obligations.MulStoresExactProduct := by
  intro m1 m2 m3
  refine ⟨encodedAs_opcode_width _, ?_, fun s a1 a2 a3 hm => ?_⟩
  · rintro rfl
    exact decode_encode_of_not_wellFormed rfl
  · exact binaryStore_narrow (g := fun x y => x.toInt * y.toInt) (writable_of_ne_immediate hm)

/-! ### Overflow is a fault (R103) -/

/-- Where all slots resolve, a result of Add, Mul or Rbo that is no cell is ArithmeticOverflow. -/
theorem exec_of_resultOverflows {i : Instr} {s : State} (hw : i.wellFormed = true) (hroom : s.room i.nparams)
    (hslots : ∀ k, 1 ≤ k → k ≤ i.nparams → ∃ a, s.slotAt k (i.modeOfSlot k) a) (hov : resultOverflows i s) :
    exec i s = .next (s.withFault .arithmeticOverflow) := by
  cases i with
  | add m1 m2 m3 =>
    obtain ⟨a1, a2, h1, h2, hc⟩ := hov
    obtain ⟨a3, h3⟩ := hslots 3 (by decide) le_rfl
    exact (binaryStore_narrow (g := fun x y => x.toInt + y.toInt) hw hroom h1 h2 h3).2 hc
  | mul m1 m2 m3 =>
    obtain ⟨a1, a2, h1, h2, hc⟩ := hov
    obtain ⟨a3, h3⟩ := hslots 3 (by decide) le_rfl
    exact (binaryStore_narrow (g := fun x y => x.toInt * y.toInt) hw hroom h1 h2 h3).2 hc
  | rbo m1 _ _ =>
    obtain ⟨a1, h1, hc⟩ := hov
    exact execRbo_of_not_isCell (resolve1_of_slotAt hroom h1) hc
  | inp | out | jit | jif | lt | equ | halt => exact hov.elim

/-- Settles O25: a result that overflows (`exec_of_resultOverflows`), and a Relative sum, which makes its slot the
first that faults (`firstFaultingSlotWins`). -/
theorem overflowIsAFault : Obligations.OverflowIsAFault := by
  intro s i hs hi hroom
  have hw := wellFormed_of_decode hi
  rw [stepRunsDecoded s i hs hi]
  exact ⟨exec_of_resultOverflows hw hroom, fun k hpos hk hbefore hsum =>
    firstFaultingSlotWins s i k .arithmeticOverflow hw hroom hpos hk hbefore (.inl ⟨rfl, hsum⟩)⟩

/-! ### Operands on which Add and Mul cannot overflow (R104) -/

theorem isCell_add_of_opposite {x y : Int} (hx : IsCell x) (hy : IsCell y)
    (h : (x ≤ 0 ∧ 0 ≤ y) ∨ (0 ≤ x ∧ y ≤ 0)) : IsCell (x + y) := by
  unfold IsCell at hx hy ⊢
  omega

/-- The two halves of a cell: the product stays below `2^63` in absolute value. -/
theorem isCell_mul_of_abs {x y : Int} (hx : |x| < 2 ^ 31) (hy : |y| ≤ 2 ^ 32) : IsCell (x * y) := by
  have hprod : |x * y| ≤ (2 ^ 31 - 1) * 2 ^ 32 := by
    rw [abs_mul]
    exact mul_le_mul (by omega) hy (abs_nonneg y) (by norm_num)
  obtain ⟨hlow, hhigh⟩ := abs_le.mp hprod
  rw [IsCell, cellMin, cellMax]
  omega

theorem isCell_neg {x : Int} (hx : IsCell x) (hmin : x ≠ cellMin) : IsCell (-x) := by
  rw [IsCell, cellMin, cellMax] at hx ⊢
  rw [cellMin] at hmin
  omega

/-- A factor 0, 1, or -1 gives 0, the other factor, or its negation. -/
theorem isCell_mul_of_bounds {x y : Int} (hx : IsCell x) (hy : IsCell y)
    (h : (|x| < 2 ^ 31 ∧ |y| ≤ 2 ^ 32) ∨ x = 0 ∨ x = 1 ∨ y = 0 ∨ y = 1 ∨
      (x = -1 ∧ y ≠ cellMin) ∨ (y = -1 ∧ x ≠ cellMin)) : IsCell (x * y) := by
  have hzero : IsCell 0 := by decide
  rcases h with ⟨habs, habs'⟩ | rfl | rfl | rfl | rfl | ⟨rfl, hmin⟩ | ⟨rfl, hmin⟩
  · exact isCell_mul_of_abs habs habs'
  · rwa [zero_mul]
  · rwa [one_mul]
  · rwa [mul_zero]
  · rwa [mul_one]
  · rw [neg_one_mul]
    exact isCell_neg hy hmin
  · rw [mul_neg_one]
    exact isCell_neg hx hmin

/-- An instruction that stored the cell of `v` and went on leaves `v` at its destination. -/
theorem exists_next_of_stored {x : Answer} {s : State} {a : Addr} {v : Int} {n : Nat} (hv : IsCell v)
    (h : x = .next ((s.setMem (s.mem.write a (cellOf v))).advance n)) :
    ∃ t, x = .next t ∧ t.st = s.st ∧ t.valueAt a = v :=
  ⟨_, h, rfl, State.valueAt_of_read_eq_cellOf hv (Memory.read_write_same ..)⟩

/-- Settles O26: the bounds keep the exact result a cell (`isCell_add_of_opposite`, `isCell_mul_of_bounds`), so that
Add and Mul store it. -/
theorem neverOverflowBounds : Obligations.NeverOverflowBounds := by
  intro s m1 m2 m3 a1 a2 a3 hm hroom h1 h2 h3
  obtain ⟨-, -, hadd⟩ := addStoresExactSum m1 m2 m3
  obtain ⟨-, -, hmul⟩ := mulStoresExactProduct m1 m2 m3
  have hx : IsCell (s.valueAt a1) := isCell_toInt _
  have hy : IsCell (s.valueAt a2) := isCell_toInt _
  constructor
  · intro h
    have hc := isCell_add_of_opposite hx hy h
    exact exists_next_of_stored hc ((hadd s a1 a2 a3 hm hroom h1 h2 h3).1 hc)
  · intro h
    have hc := isCell_mul_of_bounds hx hy h
    exact exists_next_of_stored hc ((hmul s a1 a2 a3 hm hroom h1 h2 h3).1 hc)

/-! ### What Add, Mul, Lt and Equ leave alone (R100, R101, R130, R131, R197) -/

theorem binaryStore_frame {f : Cell → Cell → Res Cell} {m1 m2 m3 : Mode} {s t : State}
    (h : binaryStore f m1 m2 m3 s = .next t) :
    t.rb = s.rb ∧ t.inq = s.inq ∧ ((t.st = s.st ∧ t.pc = s.pc + 4) ∨ ∃ k, t = s.withFault k) := by
  rcases binaryStore_cases h with ⟨a, r, -, -, -, rfl⟩ | ⟨k, rfl⟩
  · exact ⟨rfl, rfl, .inl ⟨rfl, rfl⟩⟩
  · exact ⟨rfl, rfl, .inr ⟨k, rfl⟩⟩

/-- Settles O28: the four instructions are `binaryStore` of their operations. -/
theorem computeFrame : Obligations.ComputeFrame := by
  intro i s t hi h
  cases i with
  | add | mul | lt | equ => exact binaryStore_frame h
  | inp | out | jit | jif | rbo | halt => simp [Instr.mnemonic] at hi

end Sys2Proof.Machine
end

section
/-! Proofs for 42_io.md: In (O17), a starved In and its retry (O57), Out (O18), and what In, Out, Jit, Jif, Rbo and Halt
leave alone (O29). -/

namespace Sys2Proof.Machine

/-! ### In (R110) -/

/-- An In with a destination that resolves and an empty queue changes the run-state alone. -/
theorem execInp_of_inq_nil {m1 : Mode} {s : State} {d : Addr} (hm : m1.writable = true) (hd : resolve1 s m1 = .ok d)
    (hq : s.inq = []) : execInp m1 s = .next (s.setSt .suspendedOnInput) := by
  simp only [execInp, checkWritten_of_writable hm, hd, hq, Res.ok_bind, settle]

/-- Settles O17: the destination resolves and the queue decides (`execInp_of_inq_nil`, `execInp_of_inq_cons`), or it is
the first slot that faults (`firstFaultingSlotWins`). -/
theorem inConsumesFrontOrSuspends : Obligations.InConsumesFrontOrSuspends := by
  intro m1 m2 m3
  refine ⟨encodedAs_opcode_width _, ?_, fun s hm hroom => ?_⟩
  · rintro rfl
    exact decode_encode_of_not_wellFormed rfl
  have hw : m1.writable = true := writable_of_ne_immediate hm
  have hfault := fun kind => firstFaultingSlotWins s (.inp m1 m2 m3) 1 kind hw hroom le_rfl le_rfl (by omega)
  refine ⟨fun a1 h1 => ?_, fun hov => hfault _ (.inl ⟨rfl, hov⟩), fun hneg => hfault _ (.inr ⟨rfl, hneg⟩)⟩
  have ha := resolve1_of_slotAt hroom h1
  exact ⟨execInp_of_inq_nil hw ha, fun _ _ => execInp_of_inq_cons hw (storeAddr_only_eq_some.mpr ha)⟩

/-! ### The retry of a starved In (R112, R167, R172) -/

/-- A machine that waits for input executes the instruction at `pc` anew, from Running. -/
theorem step_of_suspendedOnInput {s : State} {i : Instr} (hs : s.st = .running)
    (hi : decode (s.mem.read s.pc) = .legal i) : step (s.setSt .suspendedOnInput) = exec i s := by
  rw [step_of_legal (s := s.setSt .suspendedOnInput) rfl hi, State.setSt_setSt, State.setSt_running_of_running hs]

/-- Settles O57: each of the three steps executes the In (O17), the first two in `s` itself and the last in `s` with
the value in its queue. -/
theorem starvedInRetries : Obligations.StarvedInRetries := by
  intro s m1 m2 m3 a1 hs hi hroom h1 hq
  have hm : m1 ≠ .immediate := by
    rintro rfl
    exact absurd (wellFormed_of_decode hi) Bool.false_ne_true
  obtain ⟨-, -, hin⟩ := inConsumesFrontOrSuspends m1 m2 m3
  obtain ⟨hresolved, -, -⟩ := hin s hm hroom
  have hstarved := (hresolved a1 h1).1 hq
  refine ⟨(stepRunsDecoded s _ hs hi).trans hstarved, (step_of_suspendedOnInput hs hi).trans hstarved, fun v hv => ?_⟩
  have hfeed : feed v (s.setSt .suspendedOnInput) = .next ((s.setInq [cellOf v]).setSt .suspendedOnInput) :=
    feed_eq_next.mpr ⟨hv, by rw [State.setSt_inq, hq]; rfl⟩
  obtain ⟨hresolved', -, -⟩ := hin (s.setInq [cellOf v]) hm hroom
  have hfed := (hresolved' a1 h1).2 (cellOf v) [] rfl
  refine ⟨_, hfeed, (step_of_suspendedOnInput (s := s.setInq [cellOf v]) hs hi).trans (hfed.trans ?_)⟩
  rw [← hq]
  rfl

/-! ### Out (R111) -/

theorem execOut_of_ok {m1 : Mode} {s : State} {a1 : Addr} (ha : resolve1 s m1 = .ok a1) :
    execOut m1 s = .next ((s.advance 2).setSt (.suspendedOnOutput (s.mem.read a1))) := by
  simp only [execOut, ha, load_eq, Res.ok_bind, settle]

/-- Settles O18: with room and a slot that resolves, Out has nothing left to fail (`execOut_of_ok`). -/
theorem outSuspendsWithValue : Obligations.OutSuspendsWithValue := fun _ _ _ =>
  ⟨encodedAs_opcode_width _, fun _ _ hroom h1 => execOut_of_ok (resolve1_of_slotAt hroom h1)⟩

/-! ### What In, Out, Jit, Jif, Rbo and Halt leave alone (R110, R111, R120, R121, R140, R150, R197) -/

theorem Effect.inq_eq {s t : State} {i : Instr} (h : Effect s i t) (hi : i.mnemonic ≠ .inp) : t.inq = s.inq := by
  rcases h.inq_cases with hq | ⟨-, m1, m2, m3, rfl⟩
  · exact hq
  · exact absurd rfl hi

/-- An In consumes the front of the queue and leaves the run-state, or leaves memory, queue and `pc`. -/
theorem Effect.inp_frame {s t : State} {i : Instr} (h : Effect s i t) (hi : i.mnemonic = .inp) :
    (t.st = s.st ∧ ∃ v, s.inq = v :: t.inq) ∨ (t.mem = s.mem ∧ t.inq = s.inq ∧ t.pc = s.pc) := by
  cases h with
  | consumes m1 m2 m3 a v rest hq => exact .inl ⟨rfl, v, hq⟩
  | starves | faults => exact .inr ⟨rfl, rfl, rfl⟩
  | stores _ _ hi' | goesTo _ hi' => simp [hi] at hi'
  | outputs | movesBase | halts => cases hi

/-- A jump and an Rbo leave the run-state, unless they fault. -/
theorem Effect.st_eq_or_fault {s t : State} {i : Instr} (h : Effect s i t)
    (hi : i.mnemonic ∈ [Mnemonic.jit, .jif, .rbo]) : t.st = s.st ∨ ∃ k, t = s.withFault k := by
  cases h with
  | stores | goesTo | consumes | movesBase => exact .inl rfl
  | faults k => exact .inr ⟨k, rfl⟩
  | starves | outputs | halts => simp [Instr.mnemonic] at hi

theorem Effect.pc_eq_of_halt {s t : State} {i : Instr} (h : Effect s i t) (hi : i.mnemonic = .halt) : t.pc = s.pc := by
  cases h with
  | starves | halts | faults => rfl
  | stores _ _ hi' | goesTo _ hi' => simp [hi] at hi'
  | consumes | outputs | movesBase => cases hi

/-- Settles O29: each register by the frame lemma of `Effect` for it. -/
theorem controlAndIoFrame : Obligations.ControlAndIoFrame := by
  intro i s t h
  have he := exec_effect h
  refine ⟨fun hi => ?_, fun hi => ?_, fun hi => ?_, fun hi => ?_, fun hi => ?_⟩
  · exact ⟨he.rb_eq (by simp [hi]), he.inp_frame hi⟩
  · exact ⟨he.mem_eq (by simp [hi]), he.rb_eq (by simp [hi]), he.inq_eq (by simp [hi])⟩
  · obtain hj | hj : i.mnemonic = .jit ∨ i.mnemonic = .jif := by simpa using hi
    all_goals exact ⟨he.mem_eq (by simp [hj]), he.rb_eq (by simp [hj]), he.inq_eq (by simp [hj]),
      he.st_eq_or_fault (by simp [hj])⟩
  · exact ⟨he.mem_eq (by simp [hi]), he.inq_eq (by simp [hi]), he.st_eq_or_fault (by simp [hi])⟩
  · exact ⟨he.mem_eq (by simp [hi]), he.rb_eq (by simp [hi]), he.inq_eq (by simp [hi]), he.pc_eq_of_halt hi⟩

end Sys2Proof.Machine
end

section
/-! Proofs for 43_branch.md: Jit and Jif (O19, O20), sequential flow (O33), and the target of a taken jump (O34). -/

namespace Sys2Proof.Machine

/-! ### A jump with operands that resolve (R120 to R122) -/

theorem resolve2_of_slotAt {s : State} {m1 m2 : Mode} {a1 a2 : Addr} (hroom : s.room 2) (h1 : s.slotAt 1 m1 a1)
    (h2 : s.slotAt 2 m2 a2) : resolve2 s m1 m2 = .ok (a1, a2) :=
  resolve2_eq_ok.mpr ⟨hroom, (resolve_eq_ok (by omega)).mpr h1, (resolve_eq_ok (by omega)).mpr h2⟩

theorem jumpIf_of_cond {cond : Cell → Bool} {m1 m2 : Mode} {s : State} {a1 a2 : Addr}
    (ha : resolve2 s m1 m2 = .ok (a1, a2)) (hc : cond (s.mem.read a1) = true) (ht : 0 ≤ s.valueAt a2) :
    jumpIf cond m1 m2 s = .next (s.setPc (s.mem.read a2)) := by
  have htarget : nonNegative (s.mem.read a2) = .ok (s.mem.read a2) := nonNegative_eq_ok.mpr ⟨ht, toNat_eq_toInt ht⟩
  simp only [jumpIf, ha, load_eq, Res.ok_bind, hc, if_true, htarget, settle]

/-- A negative target is looked at only where the jump is taken, and faults there (D9). -/
theorem jumpIf_of_cond_of_neg {cond : Cell → Bool} {m1 m2 : Mode} {s : State} {a1 a2 : Addr}
    (ha : resolve2 s m1 m2 = .ok (a1, a2)) (hc : cond (s.mem.read a1) = true) (ht : s.valueAt a2 < 0) :
    jumpIf cond m1 m2 s = .next (s.withFault .addressFault) := by
  have htarget : nonNegative (s.mem.read a2) = .raise .addressFault := nonNegative_eq_raise.mpr ⟨rfl, ht⟩
  simp only [jumpIf, ha, load_eq, Res.ok_bind, hc, if_true, htarget, Res.raise_bind, settle,
    State.takeFault_eq_withFault]

theorem jumpIf_of_not_cond {cond : Cell → Bool} {m1 m2 : Mode} {s : State} {a1 a2 : Addr}
    (ha : resolve2 s m1 m2 = .ok (a1, a2)) (hc : ¬ cond (s.mem.read a1) = true) :
    jumpIf cond m1 m2 s = .next (s.advance 3) := by
  simp only [jumpIf, ha, load_eq, Res.ok_bind, if_neg hc, settle]

/-- The three cases of a jump whose condition says `p` of its cell. -/
theorem jumpIf_of_slotAt {cond : Cell → Bool} {m1 m2 : Mode} {s : State} {a1 a2 : Addr} {p : Prop}
    (hp : cond (s.mem.read a1) = true ↔ p) (hroom : s.room 2) (h1 : s.slotAt 1 m1 a1) (h2 : s.slotAt 2 m2 a2) :
    (p → 0 ≤ s.valueAt a2 → jumpIf cond m1 m2 s = .next (s.setPc (s.mem.read a2))) ∧
    (p → s.valueAt a2 < 0 → jumpIf cond m1 m2 s = .next (s.withFault .addressFault)) ∧
    (¬ p → jumpIf cond m1 m2 s = .next (s.advance 3)) := by
  have ha := resolve2_of_slotAt hroom h1 h2
  rw [← hp]
  exact ⟨jumpIf_of_cond ha, jumpIf_of_cond_of_neg ha, jumpIf_of_not_cond ha⟩

/-- A cell is 0 exactly where its value is. -/
theorem State.valueAt_eq_zero {s : State} {a : Addr} : s.valueAt a = 0 ↔ s.mem.read a = 0 :=
  BitVec.toInt_inj (y := 0)

/-- The condition of Jit, on the value of the cell (R120). -/
theorem decide_read_ne_zero {s : State} {a : Addr} : decide (s.mem.read a ≠ 0) = true ↔ s.valueAt a ≠ 0 :=
  decide_eq_true_iff.trans State.valueAt_eq_zero.not.symm

/-- The condition of Jif, on the value of the cell (R121). -/
theorem decide_read_eq_zero {s : State} {a : Addr} : decide (s.mem.read a = 0) = true ↔ s.valueAt a = 0 :=
  decide_eq_true_iff.trans State.valueAt_eq_zero.symm

/-- Settles O19: `jumpIf_of_slotAt` with the condition that the cell is not 0. -/
theorem jitJumpsIfNotZero : Obligations.JitJumpsIfNotZero := by
  refine fun m1 m2 m3 => ⟨encodedAs_opcode_width _, fun s a1 a2 hroom h1 h2 => ?_⟩
  obtain ⟨htaken, hnegative, hnot⟩ :=
    jumpIf_of_slotAt (cond := fun x => decide (x ≠ 0)) decide_read_ne_zero hroom h1 h2
  exact ⟨htaken, hnegative, fun hzero => hnot (not_not.mpr hzero)⟩

/-- Settles O20: `jumpIf_of_slotAt` with the condition that the cell is 0. -/
theorem jifJumpsIfZero : Obligations.JifJumpsIfZero := fun _ _ _ =>
  ⟨encodedAs_opcode_width _, fun _ _ _ => jumpIf_of_slotAt decide_read_eq_zero⟩

/-! ### The target of a taken jump (R122) -/

/-- The resolved address of a slot is one. -/
theorem State.slotAt_unique {s : State} {k : Nat} {m : Mode} {a b : Addr} (ha : s.slotAt k m a) (hb : s.slotAt k m b) :
    a = b := by
  cases m <;> simp only [State.slotAt] at ha hb <;> exact BitVec.eq_of_toNat_eq (by omega)

/-- Where slot 1 resolves, its cell decides whether a Jit is taken. -/
theorem jumpTaken_jit {m1 m2 m3 : Mode} {s : State} {a1 : Addr} (h1 : s.slotAt 1 m1 a1) :
    jumpTaken (.jit m1 m2 m3) s ↔ s.valueAt a1 ≠ 0 :=
  ⟨fun ⟨_, hb, hv⟩ => State.slotAt_unique hb h1 ▸ hv, fun hv => ⟨a1, h1, hv⟩⟩

/-- Where slot 1 resolves, its cell decides whether a Jif is taken. -/
theorem jumpTaken_jif {m1 m2 m3 : Mode} {s : State} {a1 : Addr} (h1 : s.slotAt 1 m1 a1) :
    jumpTaken (.jif m1 m2 m3) s ↔ s.valueAt a1 = 0 :=
  ⟨fun ⟨_, hb, hv⟩ => State.slotAt_unique hb h1 ▸ hv, fun hv => ⟨a1, h1, hv⟩⟩

/-- What Jit and Jif do, in terms of whether the jump is taken. -/
theorem exec_jump {i : Instr} {s : State} {a1 a2 : Addr} (hi : i.mnemonic ∈ [Mnemonic.jit, .jif]) (hroom : s.room 2)
    (h1 : s.slotAt 1 (i.modeOfSlot 1) a1) (h2 : s.slotAt 2 (i.modeOfSlot 2) a2) :
    (jumpTaken i s → 0 ≤ s.valueAt a2 → exec i s = .next (s.setPc (s.mem.read a2))) ∧
    (jumpTaken i s → s.valueAt a2 < 0 → exec i s = .next (s.withFault .addressFault)) ∧
    (¬ jumpTaken i s → exec i s = .next (s.advance 3)) := by
  cases i with
  | jit => exact jumpIf_of_slotAt (decide_read_ne_zero.trans (jumpTaken_jit h1).symm) hroom h1 h2
  | jif => exact jumpIf_of_slotAt (decide_read_eq_zero.trans (jumpTaken_jif h1).symm) hroom h1 h2
  | add | mul | inp | out | lt | equ | rbo | halt => simp [Instr.mnemonic] at hi

/-- A cell that holds 0, such as one never written, is no instruction (R41, R67). -/
theorem step_of_read_pc_eq_zero {s : State} (hs : s.st = .running) (hc : s.mem.read s.pc = 0) :
    step s = .next (s.withFault .illegalInstruction) :=
  (step_of_read_pc (State.terminal_of_running hs) hc).2 .badOpcode (by decide)

/-- Settles O34: the step executes the jump (`exec_jump`), and the next one, from the target, faults on a cell 0. -/
theorem jumpTargets : Obligations.JumpTargets := by
  rintro s i a2 hs hd hi hroom ⟨a1, h1⟩ h2
  rw [stepRunsDecoded s i hs hd]
  obtain ⟨htaken, hnegative, hnot⟩ := exec_jump hi hroom h1 h2
  exact ⟨fun hj ht => ⟨_, htaken hj ht, rfl, toNat_eq_toInt ht, step_of_read_pc_eq_zero hs⟩, hnegative, hnot⟩

/-! ### Sequential flow (R124) -/

theorem nparams_eq_three_of_stores {mn : Mnemonic} (h : mn ∈ [Mnemonic.add, .mul, .lt, .equ]) : mn.nparams = 3 := by
  cases mn <;> simp [Mnemonic.nparams] at h ⊢

/-- The run-states an instruction leaves when it goes on to its successor: Running, or suspended on output (R124). -/
def RunState.GoesOn (r : RunState) : Prop := r = .running ∨ ∃ v, r = .suspendedOnOutput v

theorem RunState.not_goesOn_faulted (r : FaultRecord) : ¬ (RunState.faulted r).GoesOn := by simp [RunState.GoesOn]

theorem RunState.not_goesOn_halted : ¬ RunState.halted.GoesOn := by simp [RunState.GoesOn]

theorem RunState.not_goesOn_suspendedOnInput : ¬ RunState.suspendedOnInput.GoesOn := by simp [RunState.GoesOn]

/-- An instruction that goes on had room, so that its successor address does not wrap (R83). -/
theorem room_of_goesOn {i : Instr} {s t : State} (hw : i.wellFormed = true) (h : exec i s = .next t)
    (ht : t.st.GoesOn) : s.room i.nparams := by
  by_contra hroom
  by_cases hi : i.mnemonic = .halt
  · cases i <;> cases hi
    cases h
    exact RunState.not_goesOn_halted ht
  · cases (exec_of_operandsRaise hw (operandsRaise_of_not_room hi hroom)).symm.trans h
    exact RunState.not_goesOn_faulted _ ht

/-- A jump that goes on, and whose condition does not hold, advances. -/
theorem jumpIf_pc_of_goesOn {cond : Cell → Bool} {m1 m2 : Mode} {s t : State} (h : jumpIf cond m1 m2 s = .next t)
    (ht : t.st.GoesOn) (hnot : ∀ a1, s.slotAt 1 m1 a1 → ¬ cond (s.mem.read a1) = true) :
    t.pc = s.pc + BitVec.ofNat 64 3 := by
  rcases jumpIf_cases h with ⟨a, ha, ⟨hc, -, -⟩ | ⟨-, rfl⟩⟩ | ⟨k, rfl⟩
  · obtain ⟨hroom, h1, -⟩ := resolve2_eq_ok.mp ha
    exact absurd hc (hnot a.1 ((resolve_eq_ok (by omega)).mp h1))
  · rfl
  · exact absurd ht (RunState.not_goesOn_faulted _)

/-- An instruction that is no jump and goes on advances. -/
theorem Effect.pc_of_goesOn {s t : State} {i : Instr} (h : Effect s i t) (hi : i.mnemonic ∉ [Mnemonic.jit, .jif])
    (ht : t.st.GoesOn) : t.pc = s.pc + BitVec.ofNat 64 i.width := by
  cases h with
  | stores a v hi' =>
    have hwidth : i.width = 4 := congrArg (· + 1) (nparams_eq_three_of_stores hi')
    rw [hwidth]
    rfl
  | goesTo a hi' => exact absurd hi' hi
  | consumes | outputs | movesBase => rfl
  | starves => exact absurd ht RunState.not_goesOn_suspendedOnInput
  | halts => exact absurd ht RunState.not_goesOn_halted
  | faults => exact absurd ht (RunState.not_goesOn_faulted _)

/-- An instruction that goes on and is no taken jump advances by its width. -/
theorem exec_pc_of_goesOn {i : Instr} {s t : State} (h : exec i s = .next t) (ht : t.st.GoesOn)
    (hj : ¬ jumpTaken i s) : t.pc = s.pc + BitVec.ofNat 64 i.width := by
  cases i with
  | jit => exact jumpIf_pc_of_goesOn h ht fun a1 h1 hc => hj ⟨a1, h1, decide_read_ne_zero.mp hc⟩
  | jif => exact jumpIf_pc_of_goesOn h ht fun a1 h1 hc => hj ⟨a1, h1, decide_read_eq_zero.mp hc⟩
  | add | mul | inp | out | lt | equ | rbo | halt => exact (exec_effect h).pc_of_goesOn (by simp [Instr.mnemonic]) ht

/-- Halt, a starved In and a fault leave `pc`. -/
theorem Effect.pc_of_stopped {s t : State} {i : Instr} (h : Effect s i t) (hs : s.st = .running)
    (ht : t.st = .halted ∨ t.st = .suspendedOnInput ∨ ∃ r, t.st = .faulted r) : t.pc = s.pc := by
  cases h with
  | starves | halts | faults => rfl
  | stores | goesTo | consumes | outputs | movesBase => simp [hs] at ht

/-- Settles O33: an instruction that goes on had room and advanced, so that its successor address is the exact sum; the
others leave `pc` (`Effect.pc_of_stopped`). -/
theorem sequentialFlow : Obligations.SequentialFlow := by
  intro s t i hs hd h
  rw [stepRunsDecoded s i hs hd] at h
  refine ⟨fun ht hj => ?_, (exec_effect h).pc_of_stopped hs⟩
  rw [exec_pc_of_goesOn h ht hj]
  exact toNat_add_ofNat_of_le (room_of_goesOn (wellFormed_of_decode hd) h ht)

end Sys2Proof.Machine
end

section
/-! Proofs for 44_compare.md: Lt and Equ (O21, O22). -/

namespace Sys2Proof.Machine

/-! ### A comparison with operands that resolve (R130, R131) -/

/-- An instruction that tests its two sources, where the test says `p` of them, stores 1 or 0 by `p`. -/
theorem binaryStore_boolCell {test : Cell → Cell → Bool} {m1 m2 m3 : Mode} {s : State} {a1 a2 a3 : Addr} {p : Prop}
    [Decidable p] (hp : test (s.mem.read a1) (s.mem.read a2) = true ↔ p) (hm : m3.writable = true) (hroom : s.room 3)
    (h1 : s.slotAt 1 m1 a1) (h2 : s.slotAt 2 m2 a2) (h3 : s.slotAt 3 m3 a3) :
    binaryStore (fun x y => .ok (boolCell (test x y))) m1 m2 m3 s =
      .next ((s.setMem (s.mem.write a3 (if p then 1 else 0))).advance 4) := by
  have ha := resolve3_of_slotAt hroom h1 h2 h3
  have hresult : boolCell (test (s.mem.read a1) (s.mem.read a2)) = if p then 1 else 0 := if_congr hp rfl rfl
  exact binaryStore_of_slotAt hm (storeAddr_third_eq_some.mpr ⟨a1, a2, ha⟩) h1 h2 (congrArg _ hresult)

/-- The test of Equ, on the values of the two cells: cells are equal exactly where their values are (R131). -/
theorem decide_read_eq_read {s : State} {a b : Addr} :
    decide (s.mem.read a = s.mem.read b) = true ↔ s.valueAt a = s.valueAt b :=
  decide_eq_true_iff.trans BitVec.toInt_inj.symm

/-- Settles O21: `binaryStore_boolCell`, whose test is the strict order of the values of slots 1 and 2. -/
theorem ltStoresOneOrZero : Obligations.LtStoresOneOrZero := by
  intro m1 m2 m3
  refine ⟨encodedAs_opcode_width _, ?_, fun s a1 a2 a3 hm => ?_⟩
  · rintro rfl
    exact decode_encode_of_not_wellFormed rfl
  · exact binaryStore_boolCell (test := fun x y => decide (x.toInt < y.toInt)) decide_eq_true_iff
      (writable_of_ne_immediate hm)

/-- Settles O22: `binaryStore_boolCell`, whose test is the equality of the two cells (`decide_read_eq_read`). -/
theorem equStoresOneOrZero : Obligations.EquStoresOneOrZero := by
  intro m1 m2 m3
  refine ⟨encodedAs_opcode_width _, ?_, fun s a1 a2 a3 hm => ?_⟩
  · rintro rfl
    exact decode_encode_of_not_wellFormed rfl
  · exact binaryStore_boolCell (test := fun x y => decide (x = y)) decide_read_eq_read (writable_of_ne_immediate hm)

end Sys2Proof.Machine
end

section
/-! Proofs for 45_relative_base.md: Rbo (O23), and that nothing else writes the relative base or shows it outside
Relative mode (O30). -/

namespace Sys2Proof.Machine

/-! ### Rbo (R140) -/

/-- Settles O23: the slot resolves in `s`, whose base is the old one, and the new base is a cell (`execRbo_of_isCell`)
or not (`execRbo_of_not_isCell`). -/
theorem rboAddsToBase : Obligations.RboAddsToBase := by
  intro m1 m2 m3
  refine ⟨encodedAs_opcode_width _, fun s a1 hroom h1 => ?_⟩
  have ha := resolve1_of_slotAt hroom h1
  exact ⟨execRbo_of_isCell ha, execRbo_of_not_isCell ha⟩

/-! ### Only Rbo writes the base (R141) -/

theorem Effect.rb_cases {s t : State} {i : Instr} (h : Effect s i t) :
    t.rb = s.rb ∨ ∃ m1 m2 m3, i = .rbo m1 m2 m3 := by
  cases h with
  | movesBase m1 m2 m3 r => exact .inr ⟨m1, m2, m3, rfl⟩
  | _ => exact .inl rfl

theorem step_rb_cases {s t : State} (h : step s = .next t) :
    t.rb = s.rb ∨ ∃ m1 m2 m3, decode (s.mem.read s.pc) = .legal (.rbo m1 m2 m3) := by
  rcases step_effect h with ⟨-, rfl⟩ | ⟨c, -, rfl⟩ | ⟨i, hd, he⟩
  · exact .inl rfl
  · exact .inl rfl
  · rcases he.rb_cases with hrb | ⟨m1, m2, m3, rfl⟩
    · exact .inl hrb
    · exact .inr ⟨m1, m2, m3, hd⟩

/-! ### The base shows in Relative mode only (R85 to R87, R141)

The modes of an instruction are a function `mode` of the slot, as `modeOfSlot` gives them, and `hm` says that none of
the slots it has is Relative. -/

/-- Position and Immediate do not look at the base. -/
theorem resolve_setRb {m : Mode} (s : State) (v : Cell) (k : Nat) (hm : m ≠ .relative) :
    resolve (s.setRb v) k m = resolve s k m := by
  cases m with
  | relative => exact absurd rfl hm
  | position | immediate => rfl

section
variable {mode : Nat → Mode} (s : State) (v : Cell)

theorem resolve1_setRb (hm : ∀ k, 1 ≤ k → k ≤ 1 → mode k ≠ .relative) :
    resolve1 (s.setRb v) (mode 1) = resolve1 s (mode 1) := by
  rw [resolve1, resolve_setRb s v 1 (hm 1 le_rfl le_rfl)]
  rfl

theorem resolve2_setRb (hm : ∀ k, 1 ≤ k → k ≤ 2 → mode k ≠ .relative) :
    resolve2 (s.setRb v) (mode 1) (mode 2) = resolve2 s (mode 1) (mode 2) := by
  rw [resolve2, resolve_setRb s v 1 (hm 1 le_rfl (by decide)), resolve_setRb s v 2 (hm 2 (by decide) le_rfl)]
  rfl

theorem resolve3_setRb (hm : ∀ k, 1 ≤ k → k ≤ 3 → mode k ≠ .relative) :
    resolve3 (s.setRb v) (mode 1) (mode 2) (mode 3) = resolve3 s (mode 1) (mode 2) (mode 3) := by
  rw [resolve3, resolve_setRb s v 1 (hm 1 le_rfl (by decide)), resolve_setRb s v 2 (hm 2 (by decide) (by decide)),
    resolve_setRb s v 3 (hm 3 (by decide) le_rfl)]
  rfl

theorem binaryStore_setRb (f : Cell → Cell → Res Cell) (hm : ∀ k, 1 ≤ k → k ≤ 3 → mode k ≠ .relative) :
    binaryStore f (mode 1) (mode 2) (mode 3) (s.setRb v) =
      Answer.mapNext (fun t => t.setRb v) (binaryStore f (mode 1) (mode 2) (mode 3) s) := by
  rw [binaryStore, binaryStore, ← settle_map s _ fun _ => rfl, resolve3_setRb s v hm]
  simp only [Res.bind_assoc, Res.ok_bind, load_eq, store_eq]
  rfl

theorem jumpIf_setRb (cond : Cell → Bool) (hm : ∀ k, 1 ≤ k → k ≤ 2 → mode k ≠ .relative) :
    jumpIf cond (mode 1) (mode 2) (s.setRb v) =
      Answer.mapNext (fun t => t.setRb v) (jumpIf cond (mode 1) (mode 2) s) := by
  rw [jumpIf, jumpIf, ← settle_map s _ fun _ => rfl, resolve2_setRb s v hm]
  simp only [Res.bind_assoc, Res.ok_bind, load_eq, Res.ite_bind]
  rfl

theorem execInp_setRb (hm : ∀ k, 1 ≤ k → k ≤ 1 → mode k ≠ .relative) :
    execInp (mode 1) (s.setRb v) = Answer.mapNext (fun t => t.setRb v) (execInp (mode 1) s) := by
  rw [execInp, execInp, ← settle_map s _ fun _ => rfl, resolve1_setRb s v hm, State.setRb_inq]
  cases s.inq with
  | nil =>
    simp only [Res.bind_assoc, Res.ok_bind]
    rfl
  | cons w rest =>
    simp only [Res.bind_assoc, Res.ok_bind, store_eq]
    rfl

theorem execOut_setRb (hm : ∀ k, 1 ≤ k → k ≤ 1 → mode k ≠ .relative) :
    execOut (mode 1) (s.setRb v) = Answer.mapNext (fun t => t.setRb v) (execOut (mode 1) s) := by
  rw [execOut, execOut, ← settle_map s _ fun _ => rfl, resolve1_setRb s v hm]
  simp only [Res.bind_assoc, Res.ok_bind, load_eq]
  rfl

/-- An instruction other than Rbo with no slot in Relative mode does the same whatever the base is. -/
theorem exec_setRb {i : Instr} (hi : i.mnemonic ≠ .rbo)
    (hm : ∀ k, 1 ≤ k → k ≤ i.nparams → i.modeOfSlot k ≠ .relative) :
    exec i (s.setRb v) = Answer.mapNext (fun t => t.setRb v) (exec i s) := by
  cases i with
  | add | mul | lt | equ => exact binaryStore_setRb s v _ hm
  | inp => exact execInp_setRb s v hm
  | out => exact execOut_setRb s v hm
  | jit | jif => exact jumpIf_setRb s v _ hm
  | rbo => exact absurd rfl hi
  | halt => rfl

end

/-- Settles O30: the step by its effect (`step_rb_cases`), the host operations by what they answer, and
`exec_setRb`. -/
theorem onlyRboWritesBase : Obligations.OnlyRboWritesBase := by
  refine ⟨fun s t h hne => (step_rb_cases h).resolve_left hne, ?feed, ?feedText, ?poke, ?construct,
    fun s => ⟨rfl, rfl⟩, fun i s v hi hm => exec_setRb s v hi hm⟩
  case feed =>
    intro s t v h
    obtain ⟨-, rfl⟩ := feed_eq_next.mp h
    rfl
  case feedText =>
    intro s t text h
    obtain ⟨q, -, rfl⟩ := feedText_eq_next.mp h
    rfl
  case poke =>
    intro s t a v h
    obtain ⟨-, rfl⟩ := poke_eq_next.mp h
    rfl
  case construct =>
    intro p q t h
    obtain ⟨-, -, rfl⟩ := construct_eq_next.mp h
    rfl

end Sys2Proof.Machine
end

section
/-! Proofs for 46_halt.md: Halt (O24). -/

namespace Sys2Proof.Machine

/-- Halt has no stage before Execute and none that can fail, so it completes in every state. -/
theorem exec_halt (m1 m2 m3 : Mode) (s : State) : exec (.halt m1 m2 m3) s = .next (s.setSt .halted) := rfl

/-- Settles O24: the cell and width of any instruction (`encodedAs_opcode_width`), and `exec_halt`, whose state differs
from `s` in `st` alone. -/
theorem haltStops : Obligations.HaltStops :=
  fun m1 m2 m3 => ⟨encodedAs_opcode_width (.halt m1 m2 m3), exec_halt m1 m2 m3⟩

end Sys2Proof.Machine
end

section
/-! Proofs for 47_engine_and_host.md: a step from a suspended state (O9), `construct` (O49), `feed` and `feed_text`
(O50, O51), `peek` and `poke` (O52), and `run`: its StopReason (O54), its steps (O55), and the terminal states (O56). -/

namespace Sys2Proof.Machine

/-! ### Steps outside Running (R167, R169, R171, R172) -/

/-- Settles O9: both states read the same cell, and the step on it is the same from each. -/
theorem suspendedStepsLikeRunning : Obligations.SuspendedStepsLikeRunning := by
  intro s hs
  cases hd : decode (s.mem.read s.pc) with
  | illegal c => exact (step_of_illegal hs hd).trans (step_of_illegal (s := s.setSt .running) rfl hd).symm
  | legal i => exact (step_of_legal hs hd).trans (step_of_legal (s := s.setSt .running) rfl hd).symm

theorem step_of_terminal {s : State} (h : s.st.terminal = true) : step s = .next s := by
  rcases step_cases (rfl : step s = step s) with ⟨-, hx⟩ | ⟨hst, -⟩
  · exact hx
  · simp [h] at hst

/-! ### The image in memory (R162) -/

/-- Outside the addresses of the placed cells nothing changes. -/
theorem Memory.read_place_of_outside {l : List Cell} {a : Nat} {m : Memory} {b : Addr}
    (h : b.toNat < a ∨ a + l.length ≤ b.toNat) : (m.place a l).read b = m.read b := by
  induction l generalizing a m with
  | nil => rfl
  | cons c rest ih =>
    rw [List.length_cons] at h
    rw [Memory.place, ih (by omega)]
    split
    · next ha =>
      refine Memory.read_write_of_ne fun hab => ?_
      have hb : a = b.toNat := by rw [← hab, toNat_ofNat_of_le ha]
      omega
    · rfl

/-- The placed cell number `j` stands `j` cells after the first: later ones are placed above it. -/
theorem Memory.read_place_of_getElem? {l : List Cell} {a j : Nat} {m : Memory} {b : Addr} {c : Cell}
    (hj : l[j]? = some c) (hb : b.toNat = a + j) : (m.place a l).read b = c := by
  induction l generalizing a j m with
  | nil => simp at hj
  | cons d rest ih =>
    cases j with
    | zero =>
      obtain rfl : d = c := by simpa using hj
      have ha : BitVec.ofNat 64 a = b := by rw [← Nat.add_zero a, ← hb, BitVec.ofNat_toNat, BitVec.setWidth_eq]
      have hle : a ≤ addrMax := by have := addr_le_addrMax b; omega
      rw [Memory.place, Memory.read_place_of_outside (by omega), if_pos hle, ha, Memory.read_write_same]
    | succ j => exact ih (by simpa using hj) (by omega)

/-! ### `construct` (R37, R162) -/

theorem exactCells_eq_none {l : List Int} (h : ∃ v ∈ l, ¬ IsCell v) : exactCells l = none := by
  obtain ⟨v, hv, hc⟩ := h
  cases hl : exactCells l with
  | none => rfl
  | some cs => exact absurd ((exactCells_eq_some.mp hl).1 v hv) hc

theorem construct_of_not_isCell {p q : List Int} (h : (∃ v ∈ p, ¬ IsCell v) ∨ ∃ v ∈ q, ¬ IsCell v) :
    construct p q = .refused .valueNotCell := by
  rcases h with hp | hq
  · simp only [construct, exactCells_eq_none hp]
  · cases hp : exactCells p <;> simp only [construct, hp, exactCells_eq_none hq]

/-- The queue of a new machine holds the values of its initial input. -/
theorem map_toInt_map_cellOf {q : List Int} (h : ∀ v ∈ q, IsCell v) : (q.map cellOf).map BitVec.toInt = q := by
  rw [List.map_map]
  exact (List.map_congr_left fun v hv => toInt_cellOf (h v hv)).trans q.map_id

theorem State.loaded_valueAt {p : List Int} {input : List Cell} {a : Addr} {v : Int} (hp : ∀ v ∈ p, IsCell v)
    (ha : p[a.toNat]? = some v) : (State.loaded (p.map cellOf) input).valueAt a = v := by
  have hcell : (p.map cellOf)[a.toNat]? = some (cellOf v) := by rw [List.getElem?_map, ha, Option.map_some]
  exact State.valueAt_of_read_eq_cellOf (hp v (List.mem_of_getElem? ha))
    (Memory.read_place_of_getElem? hcell (Nat.zero_add _).symm)

theorem State.loaded_valueAt_of_length_le {image input : List Cell} {a : Addr} (ha : image.length ≤ a.toNat) :
    (State.loaded image input).valueAt a = 0 := by
  have hread : (State.loaded image input).mem.read a = Memory.empty.read a :=
    Memory.read_place_of_outside (.inr (by omega))
  rw [State.valueAt, hread, Memory.read_empty]
  rfl

/-- With no image the first cell is 0, which is illegal. -/
theorem step_loaded_nil (input : List Cell) :
    step (State.loaded [] input) = .next ((State.loaded [] input).withFault .illegalInstruction) :=
  step_of_read_pc_eq_zero rfl rfl

/-- Settles O49: the new machine is `State.loaded` (`construct_eq_next`), whose memory is the placed image. -/
theorem constructLoadsImage : Obligations.ConstructLoadsImage := by
  refine fun p q _ => ⟨fun hp hq => ?_, construct_of_not_isCell⟩
  refine ⟨_, construct_eq_next.mpr ⟨hp, hq, rfl⟩, fun a v => State.loaded_valueAt hp, fun a ha => ?_, rfl, rfl,
    map_toInt_map_cellOf hq, rfl, ?_⟩
  · exact State.loaded_valueAt_of_length_le (by rwa [List.length_map])
  · rintro rfl
    exact step_loaded_nil _

/-! ### `feed` and `feed_text` (R164 to R166) -/

theorem feed_of_not_isCell {v : Int} (h : ¬ IsCell v) (s : State) : feed v s = .refused .valueNotCell := by
  simp only [feed, exactCell_of_not_isCell h]

/-- Settles O50: the two cases of `feed`. -/
theorem feedAppends : Obligations.FeedAppends :=
  fun s _ => ⟨fun h => feed_eq_next.mpr ⟨h, rfl⟩, fun h => feed_of_not_isCell h s⟩

theorem asciiCells_of_le {text : List Char} (h : ∀ c ∈ text, c.toNat ≤ 127) :
    asciiCells text = some (text.map fun c => cellOf (c.toNat : Int)) := by
  induction text with
  | nil => rfl
  | cons c rest ih =>
    obtain ⟨hc, hrest⟩ := List.forall_mem_cons.mp h
    have hcell : cellOf (c.toNat : Int) = BitVec.ofNat 64 c.toNat := BitVec.ofInt_natCast 64 c.toNat
    simp only [asciiCells, if_pos hc, ih hrest, List.map_cons, hcell]

theorem asciiCells_eq_none {text : List Char} (h : ∃ c ∈ text, 127 < c.toNat) : asciiCells text = none := by
  induction text with
  | nil => simp at h
  | cons c rest ih =>
    rw [asciiCells]
    split
    · next hc =>
      have hrest : ∃ d ∈ rest, 127 < d.toNat := by simpa [Nat.not_lt.mpr hc] using h
      rw [ih hrest]
    · rfl

/-- Settles O51: the codes of the text (`asciiCells_of_le`), or none where a character has no code. -/
theorem feedTextAppendsAscii : Obligations.FeedTextAppendsAscii := by
  refine fun s text => ⟨fun h => feedText_eq_next.mpr ⟨_, asciiCells_of_le h, rfl⟩, fun h => ?_⟩
  simp only [feedText, asciiCells_eq_none h]

/-! ### `peek` and `poke` (R173, R174) -/

theorem poke_of_not_isCell {v : Int} (h : ¬ IsCell v) (a : Addr) (s : State) :
    poke a v s = .refused .valueNotCell := by
  simp only [poke, exactCell_of_not_isCell h]

/-- Settles O52: a poke is one write of the memory (`poke_eq_next`, `Memory.read_write_of_ne`). -/
theorem peekAndPoke : Obligations.PeekAndPoke := by
  refine fun s a v => ⟨rfl, fun h => ?_, fun h => poke_of_not_isCell h a s⟩
  refine ⟨_, poke_eq_next.mpr ⟨h, rfl⟩, ?_, fun b hb => ?_, rfl, rfl, rfl, rfl⟩
  · exact State.valueAt_of_read_eq_cellOf h (Memory.read_write_same ..)
  · exact congrArg BitVec.toInt (Memory.read_write_of_ne hb.symm)

/-! ### `run` (R167 to R170) -/

theorem RunState.stopReason_eq_none {q : RunState} : q.stopReason = none ↔ q = .running := by
  cases q <;> simp [RunState.stopReason]

/-- `k + 1` steps from `s` lead to `t`, where `run` stops with `r`, and through Running states only. -/
def StopsAfter (k : Nat) (s t : State) (r : StopReason) : Prop :=
  Sys2Proof.core.run (k + 1) s = .next t ∧ t.st.stopReason = some r ∧
    ∀ j, 1 ≤ j → j ≤ k → ∃ u : State, Sys2Proof.core.run j s = .next u ∧ u.st = .running

theorem core_run_one_eq_next {s t : State} : Sys2Proof.core.run 1 s = .next t ↔ step s = .next t := by
  rw [core_run_succ_eq_next]
  constructor
  · rintro ⟨u, hu, ht⟩
    cases ht
    exact hu
  · exact fun h => ⟨t, h, rfl⟩

theorem stopsAfter_zero {s t : State} {r : StopReason} :
    StopsAfter 0 s t r ↔ step s = .next t ∧ t.st.stopReason = some r := by
  rw [StopsAfter, core_run_one_eq_next]
  exact ⟨fun ⟨ht, hr, _⟩ => ⟨ht, hr⟩, fun ⟨ht, hr⟩ => ⟨ht, hr, fun j hj hj0 => by omega⟩⟩

/-- A run of more than one step is a step to a Running state and the rest of the run from there. -/
theorem stopsAfter_succ {k : Nat} {s t : State} {r : StopReason} :
    StopsAfter (k + 1) s t r ↔ ∃ u, step s = .next u ∧ u.st = .running ∧ StopsAfter k u t r := by
  constructor
  · rintro ⟨ht, hr, hrun⟩
    obtain ⟨u, hu, ht⟩ := core_run_succ_eq_next.mp ht
    have hafter : ∀ {j w}, Sys2Proof.core.run (j + 1) s = .next w → Sys2Proof.core.run j u = .next w := by
      intro j w hw
      obtain ⟨u', hu', hw⟩ := core_run_succ_eq_next.mp hw
      cases hu.symm.trans hu'
      exact hw
    refine ⟨u, hu, ?_, ht, hr, fun j _ hj => ?_⟩
    · obtain ⟨u', hu', hst⟩ := hrun 1 le_rfl (by omega)
      cases hafter hu'
      exact hst
    · obtain ⟨w, hw, hst⟩ := hrun (j + 1) (by omega) (by omega)
      exact ⟨w, hafter hw, hst⟩
  · rintro ⟨u, hu, hst, ht, hr, hrun⟩
    refine ⟨core_run_succ_eq_next.mpr ⟨u, hu, ht⟩, hr, fun j hpos hj => ?_⟩
    obtain _ | _ | i := j
    · omega
    · exact ⟨u, core_run_one_eq_next.mpr hu, hst⟩
    · obtain ⟨w, hw, hwst⟩ := hrun (i + 1) (by omega) (by omega)
      exact ⟨w, core_run_succ_eq_next.mpr ⟨u, hu, hw⟩, hwst⟩

/-- Settles O55, by induction on the fuel: a run stops after its first step, or goes on from a Running state. -/
theorem runIsStepsUntilStopped : Obligations.RunIsStepsUntilStopped := by
  intro n s t r
  change _ ↔ ∃ k, k < n ∧ StopsAfter k s t r
  induction n generalizing s with
  | zero => simp [runFor]
  | succ n ih =>
    rw [runFor_succ_eq_stopped]
    simp only [RunState.stopReason_eq_none, ih]
    constructor
    · rintro ⟨u, hu, ⟨hr, rfl⟩ | ⟨hst, k, hk, hstops⟩⟩
      · exact ⟨0, by omega, stopsAfter_zero.mpr ⟨hu, hr⟩⟩
      · exact ⟨k + 1, by omega, stopsAfter_succ.mpr ⟨u, hu, hst, hstops⟩⟩
    · rintro ⟨_ | k, hk, hstops⟩
      · obtain ⟨ht, hr⟩ := stopsAfter_zero.mp hstops
        exact ⟨t, ht, .inl ⟨hr, rfl⟩⟩
      · obtain ⟨u, hu, hst, hstops⟩ := stopsAfter_succ.mp hstops
        exact ⟨u, hu, .inr ⟨hst, k, by omega, hstops⟩⟩

/-- The StopReason of a state in which a run stopped. -/
theorem stopReason_of_runFor {n : Nat} {s t : State} {r : StopReason} (h : runFor n s = .stopped r t) :
    t.st.stopReason = some r := by
  obtain ⟨_, -, -, hr, -⟩ := (runIsStepsUntilStopped n s t r).mp h
  exact hr

/-- Settles O54: the StopReason is that of the last state (`stopReason_of_runFor`), and different run-states have
different ones. -/
theorem runReturnsStopReason : Obligations.RunReturnsStopReason := by
  intro fuel s t r h
  have hr := stopReason_of_runFor h
  cases hst : t.st with
  | running => simp [hst, RunState.stopReason] at hr
  | suspendedOnOutput | suspendedOnInput | halted | faulted =>
    rw [hst] at hr
    cases hr
    simp

theorem runFor_of_terminal {s : State} {r : StopReason} (fuel : Nat) (hs : s.st.terminal = true)
    (hr : s.st.stopReason = some r) : runFor (fuel + 1) s = .stopped r s :=
  runFor_succ_eq_stopped.mpr ⟨s, step_of_terminal hs, .inl ⟨hr, rfl⟩⟩

/-- Settles O56: the one step of the run leaves the state (`step_of_terminal`). -/
theorem runOnTerminalChangesNothing : Obligations.RunOnTerminalChangesNothing :=
  fun fuel _ => ⟨fun h => runFor_of_terminal fuel (h ▸ rfl) (h ▸ rfl),
    fun _ h => runFor_of_terminal fuel (h ▸ rfl) (h ▸ rfl)⟩

end Sys2Proof.Machine
end

section
/-! Proofs for 60_exceptions.md: faults are precise (O37), the ways to leave Running (O38), and the causes of
ArithmeticOverflow (O39) and AddressFault (O40). -/

namespace Sys2Proof.Machine

/-! ### A faulting step (R196, R197) -/

/-- The one effect that leaves a fault record is the taking of a fault. -/
theorem Effect.eq_withFault {s t : State} {i : Instr} {r : FaultRecord} (h : Effect s i t) (hs : s.st = .running)
    (ht : t.st = .faulted r) : ∃ k, t = s.withFault k := by
  cases h with
  | faults k => exact ⟨k, rfl⟩
  | stores | goesTo | consumes | movesBase => simp [hs] at ht
  | starves | outputs | halts => cases ht

/-- A step into a faulted state, from one that is not, takes a fault. -/
theorem step_eq_withFault {s t : State} {r : FaultRecord} (h : step s = .next t) (ht : t.st = .faulted r)
    (hs : s.st.isFault = false) : ∃ k, t = s.withFault k := by
  rcases step_effect h with ⟨-, rfl⟩ | ⟨c, -, rfl⟩ | ⟨i, -, he⟩
  · simp [ht, RunState.isFault] at hs
  · exact ⟨_, rfl⟩
  · exact he.eq_withFault rfl ht

/-- Settles O37: the step takes a fault (`step_eq_withFault`), which changes `st` alone and records the instruction. -/
theorem faultsArePrecise : Obligations.FaultsArePrecise := by
  intro s t r h ht hs
  obtain ⟨k, rfl⟩ := step_eq_withFault h ht hs
  cases ht
  exact ⟨rfl, rfl, rfl⟩

/-! ### The ways to leave Running (R202) -/

/-- Settles O38: an illegal cell faults, and of the effects of a legal instruction four leave Running. -/
theorem waysToLeaveRunning : Obligations.WaysToLeaveRunning := by
  intro s t hs h hne
  rcases step_effect h with ⟨-, rfl⟩ | ⟨c, -, rfl⟩ | ⟨i, hd, he⟩
  · exact absurd hs hne
  · exact .inr (.inr (.inr ⟨_, rfl, rfl, rfl, rfl⟩))
  · cases he with
    | outputs m1 m2 m3 a => exact .inl ⟨m1, m2, m3, _, hd, rfl, rfl, rfl, rfl⟩
    | starves m1 m2 m3 hq => exact .inr (.inl ⟨m1, m2, m3, hd, hq, rfl, rfl, rfl, rfl⟩)
    | halts m1 m2 m3 => exact .inr (.inr (.inl ⟨m1, m2, m3, hd, rfl, rfl, rfl, rfl⟩))
    | faults k => exact .inr (.inr (.inr ⟨_, rfl, rfl, rfl, rfl⟩))
    | stores | goesTo | consumes | movesBase => exact absurd rfl hne

/-! ### The causes of faults (R192, R195)

What an instruction answers is known in each of the three situations: it has no room, a slot is the first that does not
resolve, or all its slots resolve. So the fault it takes is the one known there. -/

/-- What can make a legal instruction fault, and with which kind. -/
inductive FaultCause (i : Instr) (s : State) : FaultKind → Prop
  | top (hi : i.mnemonic ≠ .halt) (h : ¬ s.room i.nparams) : FaultCause i s .addressFault
  | slot {kind : FaultKind} (k : Nat) (hpos : 1 ≤ k) (hk : k ≤ i.nparams)
      (h : resolve s k (i.modeOfSlot k) = .raise kind) : FaultCause i s kind
  | result (h : resultOverflows i s) : FaultCause i s .arithmeticOverflow
  | target (a2 : Addr) (hj : jumpTaken i s) (h2 : s.slotAt 2 (i.modeOfSlot 2) a2) (h : s.valueAt a2 < 0) :
      FaultCause i s .addressFault

/-- Of the first `n` slots one is the first that raises a fault, or all resolve. -/
theorem firstRaise_or_resolve (s : State) (mode : Nat → Mode) (n : Nat) :
    (∃ k kind, k ≤ n ∧ FirstRaise s mode k kind) ∨ ∀ j, 1 ≤ j → j ≤ n → ∃ a, resolve s j (mode j) = .ok a := by
  induction n with
  | zero => exact .inr fun j _ _ => by omega
  | succ n ih =>
    rcases ih with ⟨k, kind, hk, h⟩ | hall
    · exact .inl ⟨k, kind, by omega, h⟩
    cases hr : resolve s (n + 1) (mode (n + 1)) with
    | ok a =>
      refine .inr fun j hpos hj => ?_
      obtain hj | rfl : j ≤ n ∨ j = n + 1 := by omega
      · exact hall j hpos hj
      · exact ⟨a, hr⟩
    | raise kind => exact .inl ⟨n + 1, kind, le_rfl, by omega, fun j hpos hj => hall j hpos (by omega), hr⟩
    | refuse x => exact absurd hr (resolve_notRefused s _ _ x)

/-- An answer is one fault only. -/
theorem faultKind_unique {x : Answer} {s : State} {k k' : FaultKind} (h : x = .next (s.withFault k))
    (h' : x = .next (s.withFault k')) : k = k' := by
  cases h.symm.trans h'
  rfl

/-- An answer that leaves `st` Running or suspended, or Halted, is no fault. -/
theorem ne_withFault_of_not_isFault {x : Answer} {s t : State} {k : FaultKind} (hx : x = .next t)
    (ht : t.st.isFault = false) : x ≠ .next (s.withFault k) := by
  intro h
  cases hx.symm.trans h
  cases ht

/-- Add and Mul with slots that resolve fault on their exact result only. -/
theorem not_isCell_of_binaryStore_narrow {g : Cell → Cell → Int} {m1 m2 m3 : Mode} {s : State} {a1 a2 a3 : Addr}
    {k : FaultKind} (hm : m3.writable = true) (hs : s.st = .running) (hroom : s.room 3) (h1 : s.slotAt 1 m1 a1)
    (h2 : s.slotAt 2 m2 a2) (h3 : s.slotAt 3 m3 a3)
    (h : binaryStore (fun x y => narrow (g x y)) m1 m2 m3 s = .next (s.withFault k)) :
    k = .arithmeticOverflow ∧ ¬ IsCell (g (s.mem.read a1) (s.mem.read a2)) := by
  obtain ⟨hstored, hover⟩ := binaryStore_narrow (g := g) hm hroom h1 h2 h3
  by_cases hc : IsCell (g (s.mem.read a1) (s.mem.read a2))
  · exact absurd h (ne_withFault_of_not_isFault (hstored hc) (State.isFault_of_running hs))
  · exact ⟨faultKind_unique h (hover hc), hc⟩

/-- Lt and Equ with slots that resolve do not fault. -/
theorem binaryStore_boolCell_ne_withFault {test : Cell → Cell → Bool} {m1 m2 m3 : Mode} {s : State} {a1 a2 a3 : Addr}
    {k : FaultKind} (hm : m3.writable = true) (hs : s.st = .running) (hroom : s.room 3) (h1 : s.slotAt 1 m1 a1)
    (h2 : s.slotAt 2 m2 a2) (h3 : s.slotAt 3 m3 a3) :
    binaryStore (fun x y => .ok (boolCell (test x y))) m1 m2 m3 s ≠ .next (s.withFault k) :=
  ne_withFault_of_not_isFault (binaryStore_boolCell Iff.rfl hm hroom h1 h2 h3) (State.isFault_of_running hs)

/-- An In with a slot that resolves stores or suspends. -/
theorem execInp_ne_withFault {m1 : Mode} {s : State} {a1 : Addr} {k : FaultKind} (hm : m1.writable = true)
    (hs : s.st = .running) (ha : resolve1 s m1 = .ok a1) : execInp m1 s ≠ .next (s.withFault k) := by
  cases hq : s.inq with
  | nil => exact ne_withFault_of_not_isFault (execInp_of_inq_nil hm ha hq) rfl
  | cons v rest =>
    exact ne_withFault_of_not_isFault (execInp_of_inq_cons hm (storeAddr_only_eq_some.mpr ha) hq)
      (State.isFault_of_running hs)

/-- A jump with slots that resolve faults on a negative target only, where it is taken. -/
theorem faultCause_of_jump {i : Instr} {s : State} {a1 a2 : Addr} {k : FaultKind}
    (hi : i.mnemonic ∈ [Mnemonic.jit, .jif]) (hs : s.st = .running) (hroom : s.room 2)
    (h1 : s.slotAt 1 (i.modeOfSlot 1) a1) (h2 : s.slotAt 2 (i.modeOfSlot 2) a2)
    (h : exec i s = .next (s.withFault k)) : FaultCause i s k := by
  obtain ⟨htaken, hnegative, hnot⟩ := exec_jump hi hroom h1 h2
  by_cases hj : jumpTaken i s
  · rcases lt_or_ge (s.valueAt a2) 0 with ht | ht
    · obtain rfl := faultKind_unique h (hnegative hj ht)
      exact .target a2 hj h2 ht
    · exact absurd h (ne_withFault_of_not_isFault (htaken hj ht) (State.isFault_of_running hs))
  · exact absurd h (ne_withFault_of_not_isFault (hnot hj) (State.isFault_of_running hs))

/-- An Rbo with a slot that resolves faults on the new base only. -/
theorem not_isCell_of_execRbo {m1 : Mode} {s : State} {a1 : Addr} {k : FaultKind} (hs : s.st = .running)
    (ha : resolve1 s m1 = .ok a1) (h : execRbo m1 s = .next (s.withFault k)) :
    k = .arithmeticOverflow ∧ ¬ IsCell (s.rb.toInt + s.valueAt a1) := by
  by_cases hc : IsCell (s.rb.toInt + s.valueAt a1)
  · exact absurd h (ne_withFault_of_not_isFault (execRbo_of_isCell ha hc) (State.isFault_of_running hs))
  · exact ⟨faultKind_unique h (execRbo_of_not_isCell ha hc), hc⟩

theorem exists_slotAt_two {s : State} {mode : Nat → Mode}
    (h : ∀ j, 1 ≤ j → j ≤ 2 → ∃ a, s.slotAt j (mode j) a) :
    ∃ a1 a2, s.slotAt 1 (mode 1) a1 ∧ s.slotAt 2 (mode 2) a2 := by
  obtain ⟨a1, h1⟩ := h 1 le_rfl (by decide)
  obtain ⟨a2, h2⟩ := h 2 (by decide) le_rfl
  exact ⟨a1, a2, h1, h2⟩

theorem exists_slotAt_three {s : State} {mode : Nat → Mode}
    (h : ∀ j, 1 ≤ j → j ≤ 3 → ∃ a, s.slotAt j (mode j) a) :
    ∃ a1 a2 a3, s.slotAt 1 (mode 1) a1 ∧ s.slotAt 2 (mode 2) a2 ∧ s.slotAt 3 (mode 3) a3 := by
  obtain ⟨a1, a2, h1, h2⟩ := exists_slotAt_two fun j hpos hj => h j hpos (by omega)
  obtain ⟨a3, h3⟩ := h 3 (by decide) le_rfl
  exact ⟨a1, a2, a3, h1, h2, h3⟩

/-- Where all slots resolve, only a result or a jump target can fault. -/
theorem faultCause_of_slotAt {i : Instr} {s : State} {k : FaultKind} (hw : i.wellFormed = true) (hs : s.st = .running)
    (hroom : s.room i.nparams) (hslots : ∀ j, 1 ≤ j → j ≤ i.nparams → ∃ a, s.slotAt j (i.modeOfSlot j) a)
    (h : exec i s = .next (s.withFault k)) : FaultCause i s k := by
  cases i with
  | add =>
    obtain ⟨a1, a2, a3, h1, h2, h3⟩ := exists_slotAt_three hslots
    obtain ⟨rfl, hc⟩ := not_isCell_of_binaryStore_narrow (g := fun x y => x.toInt + y.toInt) hw hs hroom h1 h2 h3 h
    exact .result ⟨a1, a2, h1, h2, hc⟩
  | mul =>
    obtain ⟨a1, a2, a3, h1, h2, h3⟩ := exists_slotAt_three hslots
    obtain ⟨rfl, hc⟩ := not_isCell_of_binaryStore_narrow (g := fun x y => x.toInt * y.toInt) hw hs hroom h1 h2 h3 h
    exact .result ⟨a1, a2, h1, h2, hc⟩
  | inp =>
    obtain ⟨a1, h1⟩ := hslots 1 le_rfl le_rfl
    exact absurd h (execInp_ne_withFault hw hs (resolve1_of_slotAt hroom h1))
  | out =>
    obtain ⟨a1, h1⟩ := hslots 1 le_rfl le_rfl
    exact absurd h (ne_withFault_of_not_isFault (execOut_of_ok (resolve1_of_slotAt hroom h1)) rfl)
  | jit | jif =>
    obtain ⟨a1, a2, h1, h2⟩ := exists_slotAt_two hslots
    exact faultCause_of_jump (by simp [Instr.mnemonic]) hs hroom h1 h2 h
  | lt | equ =>
    obtain ⟨a1, a2, a3, h1, h2, h3⟩ := exists_slotAt_three hslots
    exact absurd h (binaryStore_boolCell_ne_withFault hw hs hroom h1 h2 h3)
  | rbo =>
    obtain ⟨a1, h1⟩ := hslots 1 le_rfl le_rfl
    obtain ⟨rfl, hc⟩ := not_isCell_of_execRbo hs (resolve1_of_slotAt hroom h1) h
    exact .result ⟨a1, h1, hc⟩
  | halt => exact absurd h (ne_withFault_of_not_isFault (exec_halt ..) rfl)

/-- A fault of a legal instruction has one of the four causes. -/
theorem faultCause_of_exec {i : Instr} {s : State} {k : FaultKind} (hw : i.wellFormed = true) (hs : s.st = .running)
    (h : exec i s = .next (s.withFault k)) : FaultCause i s k := by
  by_cases hi : i.mnemonic = .halt
  · cases i <;> cases hi
    exact absurd h (ne_withFault_of_not_isFault (exec_halt ..) rfl)
  by_cases hroom : s.room i.nparams
  · rcases firstRaise_or_resolve s i.modeOfSlot i.nparams with ⟨j, kind, hj, hfirst⟩ | hall
    · have hraise := exec_of_operandsRaise hw (operandsRaise_of_firstRaise hroom hj hfirst)
      obtain rfl := faultKind_unique h hraise
      exact .slot j hfirst.pos hj hfirst.raises
    · refine faultCause_of_slotAt hw hs hroom (fun j hpos hj => ?_) h
      obtain ⟨a, ha⟩ := hall j hpos hj
      exact ⟨a, (resolve_eq_ok (by omega)).mp ha⟩
  · obtain rfl := faultKind_unique h (exec_of_operandsRaise hw (operandsRaise_of_not_room hi hroom))
    exact .top hi hroom

/-- A step that faults on a legal cell has one of the four causes for the kind it records. -/
theorem faultCause_of_step {s t : State} {i : Instr} {r : FaultRecord} (hs : s.st = .running)
    (hd : decode (s.mem.read s.pc) = .legal i) (h : step s = .next t) (ht : t.st = .faulted r) :
    FaultCause i s r.kind := by
  obtain ⟨k, rfl⟩ := step_eq_withFault h ht (State.isFault_of_running hs)
  cases ht
  exact faultCause_of_exec (wellFormed_of_decode hd) hs ((stepRunsDecoded s i hs hd).symm.trans h)

/-- Settles O39: of the four causes, a slot and a result raise ArithmeticOverflow. -/
theorem overflowHasACause : Obligations.OverflowHasACause := by
  intro s t i r hs hd h ht hk
  have hcause := faultCause_of_step hs hd h ht
  rw [hk] at hcause
  cases hcause with
  | slot k hpos hle hraise =>
    have hsum : s.sumOverflows k (i.modeOfSlot k) := by simpa using resolve_eq_raise.mp hraise
    exact .inr ⟨k, hpos, hle, hsum⟩
  | result hov => exact .inl hov

/-- Settles O40: of the four causes, the top of the address space, a slot and a jump target raise AddressFault. -/
theorem addressFaultHasACause : Obligations.AddressFaultHasACause := by
  intro s t i r hs hd h ht hk
  have hcause := faultCause_of_step hs hd h ht
  rw [hk] at hcause
  cases hcause with
  | top hi hroom => exact .inl ⟨hi, hroom⟩
  | slot k hpos hle hraise =>
    have hneg : s.addressNegative k (i.modeOfSlot k) := by simpa using resolve_eq_raise.mp hraise
    exact .inr (.inl ⟨k, hpos, hle, hneg⟩)
  | target a2 hj h2 hneg => exact .inr (.inr ⟨hj, a2, h2, hneg⟩)

end Sys2Proof.Machine
end
